-- ==== Sys2Proof/Word.lean ====
section
/-! DEFINITION. The machine's two widths (spec 00_scope.md rule R6): a byte is 8 bits, a word is 16 bits,
and every value is unsigned. -/

namespace Sys2Proof

/-- 8-bit value: `A`, `X`, `P`, one memory cell, one instruction byte (`u8`, rule R6). -/
abbrev Byte := BitVec 8

/-- 16-bit value: `PC` and memory addresses (`u16`, rule R6). -/
abbrev Word := BitVec 16

end Sys2Proof
end

