-- ==== Sys2Proof/Config.lean ====
section
/-! DEFINITION. The implementation parameters of 00_scope.md section 5 that are not a bit position.
The spec leaves no value of an instruction free (93_implementation_defined.md: "No item is modelled as `any
value`"), so this file holds no opaque constant.  `CODE_END`, the one OPEN parameter, belongs to a run and
stands in State (`Activity.running`). -/

namespace Sys2Proof.Config

/-- MEM_SIZE: the number of bytes of the memory array (rule R19). -/
def memSize : Nat := 65536

/-- The highest address, 0xFFFF: no `PC` above it is ever written (rules R8, R56). -/
def lastAddress : Nat := 0xFFFF

/-- CODE_ORIGIN: where `load_and_run` places code and sets `PC` (rule R92). -/
def codeOrigin : Word := 0x8000

/-- MAX_PROGRAM_LENGTH: the `ProgramTooLarge` bound of `load_and_run` (rule R92). -/
def maxProgramLength : Nat := 65536

/-- What every byte of the array holds at construction (rules R19, R22). -/
def memoryFill : Byte := 0x00

end Sys2Proof.Config
end

