-- ==== Sys2Proof/Machine/State.lean ====
section
/-! DEFINITION. What the machine holds (10_state.md), the reasons a step can stop, and the state after reset. -/

namespace Sys2Proof.Machine

/-- The errors of rule R73, in that rule's fixed order.  A step that raises one is the outcome `fault`; the run
or load that raised it ends and returns it as `RESULT = Err(e)` (rule R78, `State.endCall`).  Safe: each is the
spec's own error, and where real hardware might go on instead (a wrapping `PC`) the model stops. -/
inductive Fault where
  /-- Raised by the decoder for one of the 252 ILLEGAL bytes; records the byte (rule R74).  Safe. -/
  | unimplementedOpcode (op : Byte)
  /-- Raised by the fetch unit and the operand advance when `PC` would pass 0xFFFF; records the opcode address
  (rule R75).  Safe. -/
  | addressOverflow (addr : Word)
  /-- Raised by `load`, `read_word` and `write_word`; records the start and the length of the refused access
  (rule R76).  No step raises it.  Safe. -/
  | outOfBounds (addr : Word) (len : Nat)
  /-- Raised by `load_and_run`; records the code length (rule R77).  No step raises it.  Safe. -/
  | programTooLarge (len : Nat)
  deriving DecidableEq, Repr

/-- Refusals.  No instruction of this model is refused. -/
inductive Refusal where
  /-- Raised by an arm of `exec` for an instruction without a meaning; no arm does.  Safe. -/
  | notModelled (mnemonic : String)
  deriving DecidableEq, Repr

/-- The two normal stops (rules R64, R73). -/
inductive StopReason where
  | halted
  | endOfCode
  deriving DecidableEq, Repr

/-- `RESULT`, the outcome of the last host call (rule R20). -/
inductive RunResult where
  /-- `None`: no call since construction. -/
  | none
  | ok (r : StopReason)
  | err (e : Fault)
  deriving DecidableEq, Repr

/-- `CODE_END`: `none`, or `some e` with 0 ≤ e ≤ 0x10000 (rule R53). -/
abbrev CodeEnd := Option (Fin 0x10001)

/-- Whether a run is in progress.  The stopped state is rule R89's; a run carries the `CODE_END` it was started
with (rules R53, R92, R93). -/
inductive Activity where
  | stopped
  | running (codeEnd : CodeEnd)
  deriving DecidableEq, Repr

/-- The memory array `M` (rule R19) as the listing of its bytes that differ from the zero fill, in the canonical
form of `Memory.wf`. -/
abbrev Memory := List Host.Cell

/-- Addresses rise strictly from `lo` on, stay below 65,536, and no listed byte equals the fill. -/
def Memory.wfFrom : Nat → Memory → Bool
  | _, [] => true
  | lo, (k, v) :: rest =>
    decide (lo ≤ k) && decide (k < Config.memSize) && decide (v ≠ Config.memoryFill) && Memory.wfFrom (k + 1) rest

/-- The canonical form: equal memories are equal lists. -/
def Memory.wf (m : Memory) : Bool := Memory.wfFrom 0 m

/-- The state tuple `(A, X, P, PC, M, RESULT)` of rule R9, with the run in progress. -/
structure State where
  /-- `A`, the accumulator (rule R10). -/
  a : Byte
  /-- `X`, the index register (rule R11). -/
  x : Byte
  /-- `P`, the status register: bit 7 is N, bit 1 is Z, the others are reserved (rule R13). -/
  p : Byte
  /-- `PC`, the address of the next instruction's opcode byte (rule R18). -/
  pc : Word
  /-- `M`, the memory array (rule R19). -/
  mem : Memory
  /-- `RESULT`, the outcome of the last host call (rule R20). -/
  result : RunResult
  /-- The stopped state, or the run in progress and its `CODE_END` (rules R53, R89). -/
  activity : Activity
  deriving DecidableEq, Repr

/-- The state after construction, `new()` (rules R22, R90): every register 0, every byte of `M` 0, `RESULT` `None`.
No host call has been made, so no run is in progress. -/
def State.reset : State :=
  { a := 0x00, x := 0x00, p := 0x00, pc := 0x0000, mem := [], result := .none, activity := .stopped }

end Sys2Proof.Machine
end

