-- ==== Sys2Proof/Machine/Flags.lean ====
section
/-! DEFINITION. The flag update logic (40_fetch_decode_execute.md section 6) and the two flags of `P`. -/

namespace Sys2Proof.Machine

/-- Z, the Zero flag: bit 1 of `P` (rule R14). -/
def State.z (s : State) : Bool := s.p.getLsbD 1

/-- N, the Negative flag: bit 7 of `P` (rule R15). -/
def State.n (s : State) : Bool := s.p.getLsbD 7

/-- The mask 0b0111_1101 that keeps the reserved bits of `P` (rules R16, R59). -/
def reservedMask : Byte := 0x7D

/-- N's contribution: 0x80 when bit 7 of the written byte is 1 (rule R59). -/
def negativeBit (r : Byte) : Byte := if r.getLsbD 7 then 0x80 else 0x00

/-- Z's contribution: 0x02 when the written byte is 0 (rule R59). -/
def zeroBit (r : Byte) : Byte := if r = 0x00 then 0x02 else 0x00

/-- `flag_update(old, r)`: the one shared Zero/Negative rule (rule R59). -/
def flagUpdate (old r : Byte) : Byte := (old &&& reservedMask) ||| negativeBit r ||| zeroBit r

end Sys2Proof.Machine
end

