-- ==== Sys2Proof/Machine/Ops.lean ====
section
/-! DEFINITION. The named operations over memory and registers: the memory interface (20_memory.md), the
advance of `PC`, writing a register with its flags, raising an error and ending a call. -/

namespace Sys2Proof.Machine

/-! ### The memory interface -/

/-- The byte listed at an address, or the zero fill (rule R19). -/
def Memory.lookup : Memory → Nat → Byte
  | [], _ => Config.memoryFill
  | (k, v) :: rest, a => if k = a then v else Memory.lookup rest a

/-- Put one cell in front of a listing unless its byte is the fill, which is never listed. -/
def Memory.consCell (a : Nat) (v : Byte) (rest : Memory) : Memory :=
  if v = Config.memoryFill then rest else (a, v) :: rest

/-- Replace the byte at an address, keeping the canonical form. -/
def Memory.insert : Memory → Nat → Byte → Memory
  | [], a, v => Memory.consCell a v []
  | (k, w) :: rest, a, v =>
    if a < k then Memory.consCell a v ((k, w) :: rest)
    else if a = k then Memory.consCell a v rest
    else (k, w) :: Memory.insert rest a v

/-- `read_byte(a)`, with no error path (rule R25). -/
def Memory.readByte (m : Memory) (a : Word) : Byte := Memory.lookup m a.toNat

/-- `write_byte(a, v)`, with no error path (rule R26). -/
def Memory.writeByte (m : Memory) (a : Word) (v : Byte) : Memory := Memory.insert m a.toNat v

/-- `read_word(a)`: little-endian, `OutOfBounds` at 0xFFFF (rule R27). -/
def Memory.readWord (m : Memory) (a : Word) : Except Fault Word :=
  if a = 0xFFFF then .error (.outOfBounds a 2)
  else .ok (m.readByte (a + 1) ++ m.readByte a)

/-- The low byte of a word, `v[7:0]`. -/
def lowByte (v : Word) : Byte := v.extractLsb' 0 8

/-- The high byte of a word, `v[15:8]`. -/
def highByte (v : Word) : Byte := v.extractLsb' 8 8

/-- `write_word(a, v)`: little-endian, `OutOfBounds` at 0xFFFF with nothing written (rule R28). -/
def Memory.writeWord (m : Memory) (a v : Word) : Except Fault Memory :=
  if a = 0xFFFF then .error (.outOfBounds a 2)
  else .ok ((m.writeByte a (lowByte v)).writeByte (a + 1) (highByte v))

/-- `write_byte` of each byte of a sequence at rising addresses, the loop of `load` (rule R35). -/
def Memory.writeBytes : Memory → Nat → List Byte → Memory
  | m, _, [] => m
  | m, a, b :: bs => Memory.writeBytes (m.writeByte (BitVec.ofNat 16 a) b) (a + 1) bs

/-- `load(data, origin)`: the bound is checked before any byte is written (rule R35). -/
def Memory.load (m : Memory) (data : List Byte) (origin : Word) : Except Fault Memory :=
  if origin.toNat + data.length > Config.memSize then .error (.outOfBounds origin data.length)
  else .ok (m.writeBytes origin.toNat data)

/-! ### One write per field of the state -/

/-- `A <- v` (rule R7). -/
def State.setA (s : State) (v : Byte) : State := { s with a := v }
/-- `X <- v` (rule R7). -/
def State.setX (s : State) (v : Byte) : State := { s with x := v }
/-- `P <- v` (rule R7). -/
def State.setP (s : State) (v : Byte) : State := { s with p := v }
/-- `PC <- v` (rule R7). -/
def State.setPc (s : State) (v : Word) : State := { s with pc := v }
/-- The memory array after a write. -/
def State.setMem (s : State) (m : Memory) : State := { s with mem := m }
/-- `RESULT <- r` (rule R64). -/
def State.setResult (s : State) (r : RunResult) : State := { s with result := r }
/-- Start or end a run. -/
def State.setActivity (s : State) (c : Activity) : State := { s with activity := c }

/-! ### Errors, stops and the end of a call

There is no trap entry and no return from one (rules R82, R83): an error saves nothing, changes no mode and goes
to no handler.  Its whole effect is the `fault` outcome of the step and, for the call that raised it, `endCall`. -/

/-- What a step answers. -/
abbrev StepOutcome := Host.Outcome State Fault Refusal

/-- `raise E`: the step ends with the error and commits nothing (rules R7, R63, R79). -/
def raise (e : Fault) : StepOutcome := .fault e

/-- The end of a host call: its outcome is in `RESULT` and the core takes no step until the next call (rules R64,
R78, R89). -/
def State.endCall (s : State) (r : RunResult) : State := (s.setResult r).setActivity .stopped

/-- `stop R`: the run ends normally, committing the state given (rules R7, R64). -/
def stop (r : StopReason) (s : State) : StepOutcome := .next (s.endCall (.ok r))

/-- This spec's numeric code of each error (rule R73, 92_eei_decisions.md D9). -/
def Fault.code : Fault → Nat
  | .unimplementedOpcode _ => 1
  | .addressOverflow _ => 2
  | .outOfBounds _ _ => 3
  | .programTooLarge _ => 4

/-! ### The program counter -/

/-- The position `n` bytes past the opcode address `a`, or `AddressOverflow(a)`: `PC` never wraps (rules R54, R56). -/
def advance (a : Word) (n : Nat) : Except Fault Word :=
  if a.toNat + n > Config.lastAddress then .error (.addressOverflow a)
  else .ok (BitVec.ofNat 16 (a.toNat + n))

/-- Finish an instruction of `len` bytes at `PC`: after the last check that can raise an error, `commit` makes its
writes together, given the next `PC` (rules R56, R63). -/
def retire (s : State) (len : Nat) (commit : Word → StepOutcome) : StepOutcome :=
  match advance s.pc len with
  | .error e => raise e
  | .ok next => commit next

/-- The registers an instruction can write (rules R10, R11). -/
inductive Reg where
  | a
  | x
  deriving DecidableEq, Repr

/-- Write one general register. -/
def State.setReg (s : State) : Reg → Byte → State
  | .a, v => s.setA v
  | .x, v => s.setX v

/-- Write-back: one register, `P` once from the byte just written and the old `P`, and the next `PC` (rule R62). -/
def State.writeBack (s : State) (r : Reg) (v : Byte) (next : Word) : State :=
  ((s.setReg r v).setP (flagUpdate s.p v)).setPc next

/-! ### The bound check -/

/-- The bound check of rule R53: `CODE_END = some e` and `PC ≥ e`. -/
def boundReached (codeEnd : CodeEnd) (pc : Word) : Bool :=
  match codeEnd with
  | none => false
  | some e => decide (e.val ≤ pc.toNat)

end Sys2Proof.Machine
end

