-- ==== Sys2Proof/Machine/Halt.lean ====
section
/-! DEFINITION. The halt instruction (43_halt.md). -/

namespace Sys2Proof.Machine

/-- `HALT` (rule R72): `PC <- a + 1` and the run stops with `Ok(Halted)`; no register and no flag is written. -/
def execHalt (s : State) : StepOutcome :=
  retire s 1 fun next => stop .halted (s.setPc next)

end Sys2Proof.Machine
end

