-- ==== Sys2Proof/Machine/Alu.lean ====
section
/-! DEFINITION. The two ALU datapaths of rule R61; neither has a carry-out or an overflow output. -/

namespace Sys2Proof.Machine

/-- `PASS`, used by `LDA` and `TAX` (rule R61). -/
def aluPass (v : Byte) : Byte := v

/-- `INC`, the wrapping increment used by `INX`: `(v + 1) mod 256` (rule R61). -/
def aluInc (v : Byte) : Byte := BitVec.ofNat 8 ((v.toNat + 1) % 256)

end Sys2Proof.Machine
end

