-- ==== Sys2Proof/Machine/Increment.lean ====
section
/-! DEFINITION. The increment instruction (42_increment.md). -/

namespace Sys2Proof.Machine

/-- `INX` (rule R71): `X <- INC(X)`, Z and N from it, `PC <- a + 1`.  The wrap from 0xFF is no error. -/
def execInx (s : State) : StepOutcome :=
  retire s 1 fun next => .next (s.writeBack .x (aluInc s.x) next)

end Sys2Proof.Machine
end

