-- ==== Sys2Proof/Machine/LoadTransfer.lean ====
section
/-! DEFINITION. The load and transfer instructions (41_load_transfer.md). -/

namespace Sys2Proof.Machine

/-- `LDA #imm8` (rule R69): `A <- PASS(imm8)`, Z and N from it, `PC <- a + 2`; `AddressOverflow(a)` when that
position does not exist.  `imm8` is the byte the resolver found for mode `Immediate`. -/
def execLda (imm : Byte) (s : State) : StepOutcome :=
  retire s 2 fun next => .next (s.writeBack .a (aluPass imm) next)

/-- `TAX` (rule R70): `X <- PASS(A)`, Z and N from it, `PC <- a + 1`. -/
def execTax (s : State) : StepOutcome :=
  retire s 1 fun next => .next (s.writeBack .x (aluPass s.a) next)

end Sys2Proof.Machine
end

