-- ==== Sys2Proof/Syntax.lean ====
section
/-! DEFINITION. The instruction set as syntax: one constructor of `Instr` per row of spec/opcode_table.json
(rules R2, R46), and the names the decoder's entries are built from. -/

namespace Sys2Proof

/-- The addressing modes the resolver knows (rules R2, R57).  No opcode uses `absolute`. -/
inductive AddrMode where
  | immediate
  | absolute
  deriving DecidableEq, Repr

/-- The mnemonics of the opcode map (rule R46). -/
inductive Mnemonic where
  | halt
  | lda
  | tax
  | inx
  deriving DecidableEq, Repr

/-- An instruction with its operand.  The operand of `LDA #imm8` is an unsigned byte with no extension,
shift or scaling (rule R44). -/
inductive Instr where
  /-- `HALT`, opcode 0x00 (rule R72). -/
  | halt
  /-- `LDA #imm8`, opcode 0xA9 (rule R69). -/
  | lda (imm : Byte)
  /-- `TAX`, opcode 0xAA (rule R70). -/
  | tax
  /-- `INX`, opcode 0xE8 (rule R71). -/
  | inx
  deriving DecidableEq, Repr

/-- The mnemonic an instruction is written with. -/
def Instr.mnemonic : Instr → Mnemonic
  | .halt => .halt
  | .lda _ => .lda
  | .tax => .tax
  | .inx => .inx

/-- How many bytes an instruction occupies: format IMP is 1 byte, format IMM is 2 (rule R42). -/
def Instr.length : Instr → Nat
  | .halt => 1
  | .lda _ => 2
  | .tax => 1
  | .inx => 1

end Sys2Proof
end

