-- ==== Sys2Proof/Decode.lean ====
section
/-! DEFINITION. The decoder table of rule R46, a total decoder on any bytes that rejects by name, and after it
the encoder, written from the formats of rule R42. -/

namespace Sys2Proof

/-- A legal entry of `DECODE`: mnemonic, mode and length (rule R46).  Mode `none` marks a handler that does not
call the resolver. -/
structure DecoderEntry where
  mnemonic : Mnemonic
  mode     : Option AddrMode
  length   : Nat
  deriving DecidableEq, Repr

/-- One row of the opcode map. -/
structure OpcodeRow where
  opcode : Byte
  entry  : DecoderEntry
  deriving DecidableEq, Repr

/-- The opcode map of rule R46; every byte value without a row is ILLEGAL. -/
def opcodeMap : List OpcodeRow :=
  [ { opcode := 0x00, entry := { mnemonic := .halt, mode := none,            length := 1 } },
    { opcode := 0xA9, entry := { mnemonic := .lda,  mode := some .immediate, length := 2 } },
    { opcode := 0xAA, entry := { mnemonic := .tax,  mode := none,            length := 1 } },
    { opcode := 0xE8, entry := { mnemonic := .inx,  mode := none,            length := 1 } } ]

/-- The first row of a map with the given opcode. -/
def lookupOpcode (op : Byte) : List OpcodeRow → Option DecoderEntry
  | [] => none
  | row :: rows => if row.opcode = op then some row.entry else lookupOpcode op rows

/-- `DECODE[op]`: all 8 bits are matched at once (rule R43), and the result depends on the byte alone (rule
R47).  `none` is ILLEGAL. -/
def decodeEntry (op : Byte) : Option DecoderEntry := lookupOpcode op opcodeMap

/-- The operand bytes a mode consumes, counted from the first byte after the opcode (rule R58). -/
def operandByteCount : Option AddrMode → Nat
  | none => 0
  | some .immediate => 1
  | some .absolute => 2

/-- Why a byte sequence is no instruction. -/
inductive DecodeError where
  /-- There is no byte at all. -/
  | empty
  /-- The opcode byte is one of the 252 ILLEGAL values (rule R48). -/
  | illegal (op : Byte)
  /-- The opcode needs an operand byte and the sequence ends before it. -/
  | truncated (op : Byte)
  deriving DecidableEq, Repr

/-- The instruction a mnemonic makes with the bytes that follow its opcode, and the bytes after it. -/
def takeOperand (op : Byte) : Mnemonic → List Byte → Except DecodeError (Instr × List Byte)
  | .halt, rest => .ok (.halt, rest)
  | .tax, rest => .ok (.tax, rest)
  | .inx, rest => .ok (.inx, rest)
  | .lda, imm :: rest => .ok (.lda imm, rest)
  | .lda, [] => .error (.truncated op)

/-- Decode one instruction from the front of a byte sequence in ascending address order (rules R29, R42, R47),
giving it with the bytes left over. -/
def decode : List Byte → Except DecodeError (Instr × List Byte)
  | [] => .error .empty
  | op :: rest =>
    match decodeEntry op with
    | none => .error (.illegal op)
    | some ent => takeOperand op ent.mnemonic rest

/-- The opcode byte of each mnemonic (rule R46). -/
def opcodeOf : Mnemonic → Byte
  | .halt => 0x00
  | .lda => 0xA9
  | .tax => 0xAA
  | .inx => 0xE8

/-- The bytes of an instruction in ascending address order: format IMP is the opcode alone, format IMM is the
opcode and then `imm8` (rule R42). -/
def encode : Instr → List Byte
  | .halt => [opcodeOf .halt]
  | .lda imm => [opcodeOf .lda, imm]
  | .tax => [opcodeOf .tax]
  | .inx => [opcodeOf .inx]

/-- A program's encoding is the concatenation of its instructions' bytes in statement order (rule R51). -/
def encodeProgram : List Instr → List Byte
  | [] => []
  | i :: is => encode i ++ encodeProgram is

/-- Decode a whole byte sequence, instruction after instruction; `fuel` bounds the number of instructions. -/
def decodeAll : Nat → List Byte → Except DecodeError (List Instr)
  | _, [] => .ok []
  | 0, _ :: _ => .error .empty
  | fuel + 1, bytes =>
    match decode bytes with
    | .error e => .error e
    | .ok (i, rest) =>
      match decodeAll fuel rest with
      | .error e => .error e
      | .ok is => .ok (i :: is)

/-- The instructions of a byte sequence.  Every instruction has at least one byte, so the sequence's length is
fuel enough. -/
def decodeProgram (bytes : List Byte) : Except DecodeError (List Instr) := decodeAll bytes.length bytes

/-- Byte `k` of the low `nbits` bits of `w`, as spec/opcode_table.json numbers them: byte 0 is the first byte. -/
def tableByte (nbits w k : Nat) : Byte := BitVec.ofNat 8 (w % 2 ^ nbits / 256 ^ k)

/-- The longest instruction's bytes (2) of an opcode-table word, lowest address first. -/
def tableBytes (nbits w : Nat) : List Byte := [tableByte nbits w 0, tableByte nbits w 1]

/-- The instruction the decoder reads from a word of the opcode table. -/
def decodeTableWord (nbits w : Nat) : Option Instr :=
  match decode (tableBytes nbits w) with
  | .ok (i, _) => some i
  | .error _ => none

end Sys2Proof
end

