-- ==== Sys2Proof/Machine/Operands.lean ====
section
/-! DEFINITION. The addressing-mode resolver (rule R57), every operand form the decoder's entries can name, and
the fetch unit with the decoder (rules R54, R55). -/

namespace Sys2Proof.Machine

/-- `resolve(mode, p)`: the operand's effective address, from the fetch-advanced position `p` (rule R57,
90_conflicts.md C1). -/
def resolve (m : Memory) (mode : AddrMode) (p : Word) : Except Fault Word :=
  match mode with
  | .immediate => .ok p
  | .absolute => m.readWord p

/-- The operand bytes an entry's mode hands to the decoder: none; the byte at the resolved address (rule R44); the
two bytes of the resolved address itself (rule R45).  No opcode uses the last. -/
def operandBytes (m : Memory) (mode : Option AddrMode) (p : Word) : Except Fault (List Byte) :=
  match mode with
  | none => .ok []
  | some .immediate =>
    match resolve m .immediate p with
    | .error e => .error e
    | .ok ea => .ok [m.readByte ea]
  | some .absolute =>
    match resolve m .absolute p with
    | .error e => .error e
    | .ok ea => .ok [lowByte ea, highByte ea]

/-- The decoder's error for a byte sequence, as the machine reports it.  After the entry of the opcode has been
found and its operand bytes read, none arises (`Laws.fetch_cases`). -/
def decodeFault (op : Byte) : DecodeError → Fault
  | .empty => .unimplementedOpcode op
  | .illegal b => .unimplementedOpcode b
  | .truncated b => .unimplementedOpcode b

/-- Read the operand bytes an entry asks for and decode the instruction. -/
def decodeWithOperand (m : Memory) (op : Byte) (ent : DecoderEntry) (p : Word) : Except Fault Instr :=
  match operandBytes m ent.mode p with
  | .error e => .error e
  | .ok bytes =>
    match decode (op :: bytes) with
    | .error e => .error (decodeFault op e)
    | .ok (i, _) => .ok i

/-- Fetch and decode at `PC`, with the checks in rule R80's order: the fetch advance (rule R54), then the decoder
(rule R55). -/
def fetch (s : State) : Except Fault Instr :=
  match advance s.pc 1 with
  | .error e => .error e
  | .ok p =>
    match decodeEntry (s.mem.readByte s.pc) with
    | none => .error (.unimplementedOpcode (s.mem.readByte s.pc))
    | some ent => decodeWithOperand s.mem (s.mem.readByte s.pc) ent p

end Sys2Proof.Machine
end

