-- ==== Sys2Proof/Machine/Step.lean ====
section
/-! DEFINITION. One step of the core (rules R52 to R56), and where the host places one instruction. -/

namespace Sys2Proof.Machine

/-- One step.  A stopped core takes none and keeps its state (rule R89; log entry 2); a running one makes the bound
check (rule R53), fetches and decodes (rules R54, R55), and executes. -/
def step (s : State) : Host.Outcome State Fault Refusal :=
  match s.activity with
  | .stopped => .next s
  | .running codeEnd =>
    if boundReached codeEnd s.pc then stop .endOfCode s
    else
      match fetch s with
      | .error e => raise e
      | .ok i => exec i s

/-- The host's direct `run` of one instruction word (rules R93 to R95): its bytes stored at `PC`, and a run in
progress with `CODE_END = none`.  `PC` and the registers stay.  At 0xFFFF only the first byte exists to be stored. -/
def State.withFetchWord (s : State) (nbits w : Nat) : State :=
  (s.setMem (s.mem.writeBytes s.pc.toNat ((tableBytes nbits w).take (Config.memSize - s.pc.toNat)))).setActivity
    (.running none)

end Sys2Proof.Machine
end

