-- ==== Sys2Proof/Machine/Assembly.lean ====
section
/-! DEFINITION. The assembler syntax of rule R50 over lists of characters: a printer and a reader. -/

namespace Sys2Proof.Machine

/-- The sixteen hexadecimal digits as they are printed. -/
def hexDigits : List Char := ['0', '1', '2', '3', '4', '5', '6', '7', '8', '9', 'A', 'B', 'C', 'D', 'E', 'F']

/-- The mnemonic as it is written. -/
def mnemonicChars : Mnemonic → List Char
  | .halt => ['H', 'A', 'L', 'T']
  | .lda => ['L', 'D', 'A']
  | .tax => ['T', 'A', 'X']
  | .inx => ['I', 'N', 'X']

/-- A byte as `0x` and two hexadecimal digits. -/
def printByte (v : Byte) : List Char :=
  ['0', 'x', hexDigits.getD (v.toNat / 16) '0', hexDigits.getD (v.toNat % 16) '0']

/-- One statement: an operand-less instruction is its mnemonic alone, an immediate is `#` and a number (rule R50). -/
def printInstr : Instr → List Char
  | .lda imm => mnemonicChars .lda ++ [' ', '#'] ++ printByte imm
  | .halt => mnemonicChars .halt
  | .tax => mnemonicChars .tax
  | .inx => mnemonicChars .inx

/-- A program, its statements on one line separated by `;` (rule R50). -/
def printProgram : List Instr → List Char
  | [] => []
  | [i] => printInstr i
  | i :: j :: is => printInstr i ++ [';', ' '] ++ printProgram (j :: is)

/-- Where a character stands in a list, counted from 0. -/
def positionIn (c : Char) : List Char → Option Nat
  | [] => none
  | d :: ds => if c = d then some 0 else (positionIn c ds).map Nat.succ

/-- A digit's value is its place among the digits that are printed; a lower-case hexadecimal letter stands for its
capital (DESIGN CHOICE, log entry 10). -/
def digitValue (c : Char) : Option Nat := positionIn c.toUpper hexDigits

/-- The value of a digit sequence in a base, most significant digit first, read after a value `acc`. -/
def readDigits (base : Nat) : Nat → List Char → Option Nat
  | acc, [] => some acc
  | acc, c :: cs =>
    match digitValue c with
    | none => none
    | some d => if d < base then readDigits base (acc * base + d) cs else none

/-- A number: hexadecimal with prefix `0x`, else decimal (rule R50). -/
def readNumber : List Char → Option Nat
  | [] => none
  | ['0', 'x'] => none
  | '0' :: 'x' :: ds => readDigits 16 0 ds
  | ds => readDigits 10 0 ds

/-- An immediate operand: `#` and a number that fits in a byte. -/
def readImmediate : List Char → Option Byte
  | '#' :: ds =>
    match readNumber ds with
    | none => none
    | some n => if n < 256 then some (BitVec.ofNat 8 n) else none
  | _ => none

/-- A blank is a space or a tab, and no other character; a carriage return is none (DESIGN CHOICE, log entry 10: the
spec shows only single spaces). -/
def isBlank (c : Char) : Bool := c = ' ' || c = '\t'

/-- One statement without blanks around it.  DESIGN CHOICE (log entry 10), since rule R50 shows only `LDA #0xC0`: right
after `LDA` stands a space, not a tab, then any number of further blanks, then `#`, and no blank follows `#`. -/
def readStatement (cs : List Char) : Option Instr :=
  if cs = mnemonicChars .halt then some .halt
  else if cs = mnemonicChars .tax then some .tax
  else if cs = mnemonicChars .inx then some .inx
  else
    match cs with
    | 'L' :: 'D' :: 'A' :: ' ' :: rest => (readImmediate (rest.dropWhile isBlank)).map Instr.lda
    | _ => none

/-- A character that ends a statement: `;`, or the end of a line (rule R50). -/
def isSeparator (c : Char) : Bool := c = ';' || c = '\n'

/-- The pieces of a text between its separators. -/
def splitStatements : List Char → List (List Char)
  | [] => [[]]
  | c :: cs =>
    match splitStatements cs with
    | [] => [[c]]
    | piece :: pieces => if isSeparator c then [] :: piece :: pieces else (c :: piece) :: pieces

/-- A piece without the blanks before and after it. -/
def trimBlanks (cs : List Char) : List Char := ((cs.dropWhile isBlank).reverse.dropWhile isBlank).reverse

/-- Read each statement, in order. -/
def readStatements : List (List Char) → Option (List Instr)
  | [] => some []
  | cs :: rest =>
    match readStatement cs, readStatements rest with
    | some i, some is => some (i :: is)
    | _, _ => none

/-- A whole program text; a piece of blanks alone is no statement (log entry 10). -/
def readProgram (cs : List Char) : Option (List Instr) :=
  readStatements (((splitStatements cs).map trimBlanks).filter (· ≠ []))

/-- Assemble a program text to its bytes (rules R50, R51). -/
def assemble (cs : List Char) : Option (List Byte) := (readProgram cs).map encodeProgram

end Sys2Proof.Machine
end

