-- ==== Sys2Proof/Machine/HostCalls.lean ====
section
/-! DEFINITION. What the host can do (00_scope.md rule R5, 70_reset_and_hazards.md): the loop `run`, the two entry
operations, the loader, and writes of registers and memory between calls. -/

namespace Sys2Proof.Machine

/-- `run()`'s loop (rule R64), for at most `fuel` steps: each continuing step goes on, a stop or an error ends the
call with its outcome in `RESULT`.  `none` says that the fuel ran out first. -/
def runLoop : Nat → State → Option State
  | 0, s => if s.activity = .stopped then some s else none
  | fuel + 1, s =>
    if s.activity = .stopped then some s
    else
      match step s with
      | .next s' => runLoop fuel s'
      | .fault e => some (s.endCall (.err e))
      | .refused _ => none

/-- The start of a run with the given `CODE_END` at the current `PC` (rule R93). -/
def State.startRun (s : State) (codeEnd : CodeEnd) : State := s.setActivity (.running codeEnd)

/-- `run()`, the direct entry (rule R93).  65,536 steps are enough for every run (rule R68). -/
def hostRun (codeEnd : CodeEnd) (s : State) : Option State := runLoop Config.memSize (s.startRun codeEnd)

/-- `load(data, origin)` as a host call (rules R35, R78): a failed load changes nothing but `RESULT`. -/
def hostLoad (data : List Byte) (origin : Word) (s : State) : State :=
  match s.mem.load data origin with
  | .error e => s.endCall (.err e)
  | .ok m => s.setMem m

/-- `write_word(a, v)` as a host call: nothing is written at 0xFFFF (rules R28, R78). -/
def hostWriteWord (a v : Word) (s : State) : State :=
  match s.mem.writeWord a v with
  | .error e => s.endCall (.err e)
  | .ok m => s.setMem m

/-- `load_and_run(code)` up to the first fetch (rule R92): either the call has ended with a load error, or the code
is at the origin, `PC` is there and a run is in progress with `CODE_END = none`. -/
def State.startLoadAndRun (s : State) (code : List Byte) : State :=
  if code.length > Config.maxProgramLength then s.endCall (.err (.programTooLarge code.length))
  else
    match s.mem.load code Config.codeOrigin with
    | .error e => s.endCall (.err e)
    | .ok m => ((s.setMem m).setPc Config.codeOrigin).startRun none

/-- `load_and_run(code)` (rule R92). -/
def loadAndRun (code : List Byte) (s : State) : Option State := runLoop Config.memSize (s.startLoadAndRun code)

/-- The host's calls and its writes between calls (rules R5, R94, R95, 92_eei_decisions.md D8). -/
inductive HostCall where
  | setA (v : Byte)
  | setX (v : Byte)
  | setP (v : Byte)
  | setPc (v : Word)
  | writeByte (a : Word) (v : Byte)
  | writeWord (a v : Word)
  | load (data : List Byte) (origin : Word)
  | run (codeEnd : CodeEnd)
  | loadAndRun (code : List Byte)
  deriving DecidableEq, Repr

/-- What one host call does to a core at rest. -/
def HostCall.apply : HostCall → State → Option State
  | .setA v, s => some (s.setA v)
  | .setX v, s => some (s.setX v)
  | .setP v, s => some (s.setP v)
  | .setPc v, s => some (s.setPc v)
  | .writeByte a v, s => some (s.setMem (s.mem.writeByte a v))
  | .writeWord a v, s => some (hostWriteWord a v s)
  | .load data origin, s => some (hostLoad data origin s)
  | .run codeEnd, s => hostRun codeEnd s
  | .loadAndRun code, s => Sys2Proof.Machine.loadAndRun code s

/-- A host call from a given state: the host never acts during a run (rule R5), so there is none then. -/
def hostCall (c : HostCall) (s : State) : Option State :=
  if s.activity = .stopped then c.apply s else none

/-- A sequence of host calls, each from the state the one before it left (rule R95). -/
def hostSession : List HostCall → State → Option State
  | [], s => some s
  | c :: cs, s =>
    match hostCall c s with
    | none => none
    | some s' => hostSession cs s'

/-- The externally observable outputs (rule R23, 92_eei_decisions.md D19). -/
structure Observation where
  result : RunResult
  a      : Byte
  x      : Byte
  p      : Byte
  pc     : Word
  deriving DecidableEq, Repr

/-- What the host reads after a call returns (rule R23). -/
def State.observe (s : State) : Observation :=
  { result := s.result, a := s.a, x := s.x, p := s.p, pc := s.pc }

end Sys2Proof.Machine
end

