-- ==== Sys2Proof/Safety.lean ====
section
/-! DEFINITION. What claims call legal states and safe steps, and the readings of a state they are written in. -/

namespace Sys2Proof

open Sys2Proof.Machine

/-- A value `RESULT` may hold: the outcomes of rule R20 with the bounds of rule R73's table.  An `OutOfBounds`
records an access that passes the end of the array (rule R76), a `ProgramTooLarge` a length above the bound (rule
R77), an `UnimplementedOpcode` an ILLEGAL byte (rule R74), an `AddressOverflow` one of the two last addresses (rule
R75). -/
def resultLegal : RunResult → Prop
  | .none => True
  | .ok _ => True
  | .err (.unimplementedOpcode op) => decodeEntry op = none
  | .err (.addressOverflow a) => 0xFFFE ≤ a.toNat
  | .err (.outOfBounds a n) => Config.memSize < a.toNat + n
  | .err (.programTooLarge n) => Config.maxProgramLength < n

/-- The invariant of the whole machine: memory is in canonical form (log entry 4, the model's choice) and `RESULT` is
legal. -/
structure StateInv (s : State) : Prop where
  memory : s.mem.wf = true
  result : resultLegal s.result

/-- A safe step: it raises no error. -/
def SafeStep (s : State) : Prop := ∃ s', step s = .next s'

/-- The same for every address: the two memories read alike. -/
def SameBytes (m m' : Memory) : Prop := ∀ a : Word, m.readByte a = m'.readByte a

/-- The bits of `P` that no instruction writes are the same (rule R16). -/
def SameReserved (p p' : Byte) : Prop :=
  ∀ k, k < 8 → k ≠ 1 → k ≠ 7 → p'.getLsbD k = p.getLsbD k

/-- The `n` bytes of memory from the word address `a` on are exactly `bytes`. -/
def BytesAt (m : Memory) (a : Nat) (bytes : List Byte) : Prop :=
  ∀ k (h : k < bytes.length), m.readByte (BitVec.ofNat 16 (a + k)) = bytes[k]

/-- `n` executions of one instruction, one after another, each answering a next state. -/
def ExecTimes (i : Instr) : Nat → State → State → Prop
  | 0, s, t => t = s
  | n + 1, s, t => ∃ u, exec i s = .next u ∧ ExecTimes i n u t

/-- The registers `(A, X, P)` after one instruction, as the source's prose gives them, with no `PC` and no memory. -/
def evalInstr : Instr → Byte × Byte × Byte → Byte × Byte × Byte
  | .halt, r => r
  | .lda imm, (_, x, p) => (imm, x, flagUpdate p imm)
  | .tax, (a, _, p) => (a, a, flagUpdate p a)
  | .inx, (a, x, p) => (a, x + 1, flagUpdate p (x + 1))

/-- The registers after a sequence of instructions. -/
def evalInstrs : List Instr → Byte × Byte × Byte → Byte × Byte × Byte
  | [], r => r
  | i :: is, r => evalInstrs is (evalInstr i r)

end Sys2Proof
end

