-- ==== Sys2Proof/WellFormed.lean ====
section
/-! DEFINITION. The checks on syntax.  An operand's range is carried by its type (`imm : Byte`), so every
term of `Instr` stands for an instruction of the opcode map.  What can be ill-formed is where an instruction
is placed and how long a code buffer is; each check is a Bool. -/

namespace Sys2Proof

/-- An instruction placed at `a` can complete: the position just past its last byte is still an address
(rule R56). -/
def Instr.fitsAt (i : Instr) (a : Word) : Bool :=
  decide (a.toNat + i.length ≤ Config.lastAddress)

/-- A byte sequence fits in memory from `origin` on; ending at 0xFFFF is accepted (rule R35). -/
def fitsFrom (origin : Word) (code : List Byte) : Bool :=
  decide (origin.toNat + code.length ≤ Config.memSize)

/-- A code buffer `load_and_run` accepts: it passes both length checks (rule R92, 90_conflicts.md C4). -/
def codeAccepted (code : List Byte) : Bool :=
  decide (code.length ≤ Config.maxProgramLength) && fitsFrom Config.codeOrigin code

end Sys2Proof
end

