-- ==== Sys2Proof/Certificates/Slice0/Obligations.lean ====
section
/-! DEFINITION. The statements for the provers.  `s.pc.toNat` is `PC` as a number, `BitVec.ofNat 16 n` the address `n`;
an equation whose right side is `{ s with … }` is also the frame: every field not named there is as before. -/

open Sys2Proof Sys2Proof.Machine

/-! ### Reset and the memory array -/

/-- Rule R22: the state after construction. -/
def Obligations.ResetZeroesEverything : Prop :=
  State.reset.a = 0x00 ∧ State.reset.x = 0x00 ∧ State.reset.p = 0x00 ∧ State.reset.pc = 0x0000 ∧
    (∀ addr : Word, State.reset.mem.readByte addr = 0x00) ∧ State.reset.result = .none

/-- Rule R32 with R25 and R26: a written byte is read back at its address, and every other address reads as before. -/
def Obligations.ByteWriteIsReadBackAndNothingElseChanges : Prop :=
  ∀ (m : Memory) (addr other : Word) (v : Byte), m.wf = true →
    (m.writeByte addr v).readByte addr = v ∧
      (other ≠ addr → (m.writeByte addr v).readByte other = m.readByte other)

/-- The canonical form: memories that read alike are the same data (notes/assumptions/4.md, the model's own). -/
def Obligations.MemoriesThatReadAlikeAreEqual : Prop :=
  ∀ m m' : Memory, m.wf = true → m'.wf = true → SameBytes m m' → m = m'

/-- Every memory operation keeps the canonical form (notes/assumptions/4.md, the model's own). -/
def Obligations.MemoryOperationsKeepCanonicalForm : Prop :=
  ∀ (m m' : Memory), m.wf = true →
    (∀ addr v, (m.writeByte addr v).wf = true) ∧
      (∀ addr v, m.writeWord addr v = .ok m' → m'.wf = true) ∧
      (∀ data origin, m.load data origin = .ok m' → m'.wf = true)

/-- Rule R27: `read_word` is the little-endian word, and an error at 0xFFFF. -/
def Obligations.WordReadIsLittleEndianAndStopsAtTheTop : Prop :=
  ∀ (m : Memory) (addr : Word),
    (addr = 0xFFFF → m.readWord addr = .error (.outOfBounds addr 2)) ∧
      (addr ≠ 0xFFFF → ∃ w, m.readWord addr = .ok w ∧
        w.toNat = (m.readByte addr).toNat + 256 * (m.readByte (BitVec.ofNat 16 (addr.toNat + 1))).toNat)

/-- Rules R28 and R29: `write_word` puts the low byte at the address and the high byte after it, changes no other
byte, and is an error at 0xFFFF, where it gives no new memory. -/
def Obligations.WordWriteIsLittleEndianAndStopsAtTheTop : Prop :=
  ∀ (m : Memory) (addr v : Word), m.wf = true →
    (addr = 0xFFFF → m.writeWord addr v = .error (.outOfBounds addr 2)) ∧
      (addr ≠ 0xFFFF → ∃ m', m.writeWord addr v = .ok m' ∧
        (m'.readByte addr).toNat = v.toNat % 256 ∧
        (m'.readByte (BitVec.ofNat 16 (addr.toNat + 1))).toNat = v.toNat / 256 ∧
        m'.readWord addr = .ok v ∧
        ∀ other : Word, other.toNat ≠ addr.toNat → other.toNat ≠ addr.toNat + 1 →
          m'.readByte other = m.readByte other)

/-- Rule R30: a word access is refused at 0xFFFF alone, at odd and even addresses alike, and every instruction of
which the bytes fit runs at every address. -/
def Obligations.NoAccessNeedsAlignment : Prop :=
  (∀ (m : Memory) (addr : Word), (∃ w, m.readWord addr = .ok w) ↔ addr ≠ 0xFFFF) ∧
    (∀ (m : Memory) (addr v : Word), (∃ m', m.writeWord addr v = .ok m') ↔ addr ≠ 0xFFFF) ∧
    (∀ (i : Instr) (s : State), (∃ t, exec i s = .next t) ↔ s.pc.toNat + i.length ≤ 0xFFFF)

/-- The loader copies the whole sequence or nothing, after rule R35; that a successful load leaves `RESULT` too as it
was is the model's choice (notes/assumptions/6.md). -/
def Obligations.LoaderCopiesAllOrNothing : Prop :=
  ∀ (s : State) (data : List Byte) (origin : Word), s.mem.wf = true →
    (origin.toNat + data.length ≤ 65536 → ∃ m', s.mem.load data origin = .ok m' ∧
      hostLoad data origin s = { s with mem := m' } ∧
      BytesAt m' origin.toNat data ∧
      ∀ other : Word, (other.toNat < origin.toNat ∨ origin.toNat + data.length ≤ other.toNat) →
        m'.readByte other = s.mem.readByte other) ∧
    (65536 < origin.toNat + data.length →
      s.mem.load data origin = .error (.outOfBounds origin data.length) ∧
      (hostLoad data origin s).a = s.a ∧ (hostLoad data origin s).x = s.x ∧ (hostLoad data origin s).p = s.p ∧
      (hostLoad data origin s).pc = s.pc ∧ (hostLoad data origin s).mem = s.mem)

/-! ### Encodings -/

/-- Rule R46: the decoder's 256 entries. -/
def Obligations.OpcodeMapIsTheDecoder : Prop :=
  (∀ op : Byte, decodeEntry op =
    if op = 0x00 then some { mnemonic := .halt, mode := none, length := 1 }
    else if op = 0xA9 then some { mnemonic := .lda, mode := some .immediate, length := 2 }
    else if op = 0xAA then some { mnemonic := .tax, mode := none, length := 1 }
    else if op = 0xE8 then some { mnemonic := .inx, mode := none, length := 1 }
    else none) ∧
  ((List.range 256).filter fun n => decide (decodeEntry (BitVec.ofNat 8 n) = none)).length = 252

/-- Words written out from the encodings of rules R42 and R46, one of each format at least and one ILLEGAL byte; the
last clause reads a table word as two bytes, the model's choice (notes/assumptions/3.md). -/
def Obligations.WordsOfEachFormatDecode : Prop :=
  decode [0xA9, 0xC0] = .ok (.lda 0xC0, []) ∧ decode [0xAA] = .ok (.tax, []) ∧
    decode [0xE8, 0x00] = .ok (.inx, [0x00]) ∧ decode [0x00] = .ok (.halt, []) ∧
    decode [0x4C, 0x00, 0x80] = .error (.illegal 0x4C) ∧ decodeTableWord 16 0xC0A9 = some (.lda 0xC0)

/-- Decoding an encoded instruction gives it back, with its operand at every value, whatever follows it. -/
def Obligations.DecodeReadsBackEncode : Prop :=
  ∀ (i : Instr) (rest : List Byte), decode (encode i ++ rest) = .ok (i, rest)

/-- The other direction: whatever the decoder accepts, for a whole byte sequence, is the encoding of what it
answers. -/
def Obligations.DecodedProgramsReencode : Prop :=
  ∀ (bytes : List Byte) (is : List Instr), decodeProgram bytes = .ok is → encodeProgram is = bytes

/-- Decode and encode agree over whole programs: every sequence of instructions is read back from its bytes, so two
programs with the same bytes are the same program. -/
def Obligations.DecodeAndEncodeAgreeOnPrograms : Prop :=
  (∀ is : List Instr, decodeProgram (encodeProgram is) = .ok is) ∧
    ∀ is js : List Instr, encodeProgram is = encodeProgram js → is = js

/-- Rule R47 with R58 (both marked derived by the spec): the opcode byte alone decides how many bytes an instruction
has, and they are the opcode and the operand bytes of its mode. -/
def Obligations.OpcodeByteDecidesTheLength : Prop :=
  ∀ (op : Byte) (tail rest : List Byte) (i : Instr), decode (op :: tail) = .ok (i, rest) →
    ∃ ent, decodeEntry op = some ent ∧ ent.mnemonic = i.mnemonic ∧ i.length = ent.length ∧
      ent.length = 1 + operandByteCount ent.mode ∧ (op :: tail).length = ent.length + rest.length

/-- Rule R51: a program's bytes are its instructions' bytes in order, each with its opcode first; the spec's line
assembles to the spec's bytes. -/
def Obligations.ProgramBytesAreItsInstructionsInOrder : Prop :=
  encodeProgram [] = [] ∧ (∀ i is, encodeProgram (i :: is) = encode i ++ encodeProgram is) ∧
    (∀ imm, encode (.lda imm) = [0xA9, imm]) ∧ encode .tax = [0xAA] ∧ encode .inx = [0xE8] ∧ encode .halt = [0x00] ∧
    assemble ['L', 'D', 'A', ' ', '#', '0', 'x', 'C', '0', ';', ' ', 'T', 'A', 'X', ';', ' ', 'I', 'N', 'X', ';', ' ',
      'H', 'A', 'L', 'T'] = some [0xA9, 0xC0, 0xAA, 0xE8, 0x00]

/-- Assembler text round trip: the model's printed form (notes/assumptions/10.md, the model's own) is read back. -/
def Obligations.PrintedProgramsAreReadBack : Prop :=
  ∀ is : List Instr, readProgram (printProgram is) = some is

/-! ### Datapaths, flags and the resolver -/

/-- Rule R59: Z iff the byte is zero, N iff its bit 7 is 1, every other bit passes through. -/
def Obligations.FlagUpdateOwnsZAndNOnly : Prop :=
  ∀ old r : Byte, (flagUpdate old r).getLsbD 1 = decide (r.toNat = 0) ∧
    (flagUpdate old r).getLsbD 7 = decide (128 ≤ r.toNat) ∧ SameReserved old (flagUpdate old r) ∧
    flagUpdate old r = (old &&& 0x7D) ||| (if 128 ≤ r.toNat then 0x80 else 0x00) |||
      (if r.toNat = 0 then 0x02 else 0x00)

/-- The four properties the spec derives from rule R59 (its rule R60). -/
def Obligations.FlagUpdateNeverSetsBothAndForgetsOldFlags : Prop :=
  ∀ old old' r : Byte,
    ¬ ((flagUpdate old r).getLsbD 1 = true ∧ (flagUpdate old r).getLsbD 7 = true) ∧
    (flagUpdate old r).extractLsb' 2 5 = old.extractLsb' 2 5 ∧ (flagUpdate old r).getLsbD 0 = old.getLsbD 0 ∧
    (SameReserved old old' → flagUpdate old r = flagUpdate old' r) ∧
    flagUpdate (flagUpdate old r) r = flagUpdate old r

/-- Rule R61: the two datapaths. -/
def Obligations.DatapathsPassAndWrap : Prop :=
  ∀ v : Byte, aluPass v = v ∧ (aluInc v).toNat = (v.toNat + 1) % 256 ∧ aluInc 0xFF = 0x00

/-- Rule R57: the resolver's two arms, and a mode `none` that reads no operand. -/
def Obligations.ResolverArmsFollowTheDataModel : Prop :=
  ∀ (m : Memory) (pos : Word),
    resolve m .immediate pos = .ok pos ∧
    (pos = 0xFFFF → resolve m .absolute pos = .error (.outOfBounds pos 2)) ∧
    (pos ≠ 0xFFFF → ∃ ea, resolve m .absolute pos = .ok ea ∧
      ea.toNat = (m.readByte pos).toNat + 256 * (m.readByte (BitVec.ofNat 16 (pos.toNat + 1))).toNat) ∧
    operandBytes m none pos = .ok []

/-! ### The instructions -/

/-- `LDA #imm8` completes below the top of memory, with this next state. -/
def Obligations.LdaLoadsItsImmediate : Prop :=
  ∀ (imm : Byte) (s : State), s.pc.toNat + 2 ≤ 0xFFFF →
    exec (.lda imm) s =
      .next { s with a := imm, p := flagUpdate s.p imm, pc := BitVec.ofNat 16 (s.pc.toNat + 2) }

/-- `TAX` completes below the top of memory, with this next state. -/
def Obligations.TaxCopiesTheAccumulator : Prop :=
  ∀ s : State, s.pc.toNat + 1 ≤ 0xFFFF →
    exec .tax s =
      .next { s with x := s.a, p := flagUpdate s.p s.a, pc := BitVec.ofNat 16 (s.pc.toNat + 1) }

/-- `INX` completes below the top of memory, with this next state. -/
def Obligations.InxIncrementsWithWraparound : Prop :=
  ∀ s : State, s.pc.toNat + 1 ≤ 0xFFFF →
    exec .inx s =
      .next { s with
        x := BitVec.ofNat 8 ((s.x.toNat + 1) % 256),
        p := flagUpdate s.p (BitVec.ofNat 8 ((s.x.toNat + 1) % 256)),
        pc := BitVec.ofNat 16 (s.pc.toNat + 1) }

/-- `HALT` completes below the top of memory: the run stops with `Ok(Halted)`, `PC` just past the halt byte. -/
def Obligations.HaltStopsJustPastItself : Prop :=
  ∀ s : State, s.pc.toNat + 1 ≤ 0xFFFF →
    exec .halt s =
      .next { s with pc := BitVec.ofNat 16 (s.pc.toNat + 1), result := .ok .halted, activity := .stopped }

/-- Rule R69: `LDA #imm8` in memory, from its encoding to its result and its two errors. -/
def Obligations.LdaInMemoryLoadsTheNextByte : Prop :=
  decodeEntry 0xA9 = some { mnemonic := .lda, mode := some .immediate, length := 2 } ∧
  ∀ (s : State) (codeEnd : CodeEnd), s.activity = .running codeEnd → boundReached codeEnd s.pc = false →
    s.mem.readByte s.pc = 0xA9 →
    (s.pc.toNat ≤ 0xFFFD → ∃ t, step s = .next t ∧
      t.a = s.mem.readByte (BitVec.ofNat 16 (s.pc.toNat + 1)) ∧ t.x = s.x ∧
      t.z = decide (t.a.toNat = 0) ∧ t.n = t.a.getLsbD 7 ∧ SameReserved s.p t.p ∧
      t.pc.toNat = s.pc.toNat + 2 ∧ t.mem = s.mem ∧ t.result = s.result ∧ t.activity = s.activity) ∧
    (0xFFFE ≤ s.pc.toNat → step s = .fault (.addressOverflow s.pc))

/-- Rule R70: `TAX` in memory. -/
def Obligations.TaxInMemoryCopiesTheAccumulator : Prop :=
  decodeEntry 0xAA = some { mnemonic := .tax, mode := none, length := 1 } ∧
  ∀ (s : State) (codeEnd : CodeEnd), s.activity = .running codeEnd → boundReached codeEnd s.pc = false →
    s.mem.readByte s.pc = 0xAA →
    (s.pc.toNat ≤ 0xFFFE → ∃ t, step s = .next t ∧
      t.x = s.a ∧ t.a = s.a ∧ t.z = decide (s.a.toNat = 0) ∧ t.n = s.a.getLsbD 7 ∧ SameReserved s.p t.p ∧
      t.pc.toNat = s.pc.toNat + 1 ∧ t.mem = s.mem ∧ t.result = s.result ∧ t.activity = s.activity) ∧
    (s.pc.toNat = 0xFFFF → step s = .fault (.addressOverflow s.pc))

/-- Rule R71: `INX` in memory, and 256 of them in a row. -/
def Obligations.InxInMemoryIncrements : Prop :=
  decodeEntry 0xE8 = some { mnemonic := .inx, mode := none, length := 1 } ∧
  (∀ (s : State) (codeEnd : CodeEnd), s.activity = .running codeEnd → boundReached codeEnd s.pc = false →
    s.mem.readByte s.pc = 0xE8 →
    (s.pc.toNat ≤ 0xFFFE → ∃ t, step s = .next t ∧
      t.x.toNat = (s.x.toNat + 1) % 256 ∧ t.a = s.a ∧ t.z = decide (t.x.toNat = 0) ∧ t.n = t.x.getLsbD 7 ∧
      SameReserved s.p t.p ∧ t.pc.toNat = s.pc.toNat + 1 ∧ t.mem = s.mem ∧ t.result = s.result ∧
      t.activity = s.activity) ∧
    (s.pc.toNat = 0xFFFF → step s = .fault (.addressOverflow s.pc))) ∧
  ∀ s : State, s.pc.toNat + 256 ≤ 0xFFFF → ∃ t, ExecTimes .inx 256 s t ∧ t.x = s.x

/-- Rule R72: `HALT` in memory. -/
def Obligations.HaltInMemoryStopsTheRun : Prop :=
  decodeEntry 0x00 = some { mnemonic := .halt, mode := none, length := 1 } ∧
  ∀ (s : State) (codeEnd : CodeEnd), s.activity = .running codeEnd → boundReached codeEnd s.pc = false →
    s.mem.readByte s.pc = 0x00 →
    (s.pc.toNat ≤ 0xFFFE → ∃ t, step s = .next t ∧
      t.pc.toNat = s.pc.toNat + 1 ∧ t.result = .ok .halted ∧ t.activity = .stopped ∧
      t.a = s.a ∧ t.x = s.x ∧ t.p = s.p ∧ t.mem = s.mem) ∧
    (s.pc.toNat = 0xFFFF → step s = .fault (.addressOverflow s.pc))

/-- The frame of the four instructions: what each leaves unchanged. -/
def Obligations.InstructionsChangeOnlyWhatTheyName : Prop :=
  ∀ (i : Instr) (s t : State), exec i s = .next t →
    ((∀ imm, i ≠ .lda imm) → t.a = s.a) ∧
    (i ≠ .tax → i ≠ .inx → t.x = s.x) ∧
    (i = .halt → t.p = s.p) ∧
    SameReserved s.p t.p ∧
    (i ≠ .halt → t.result = s.result ∧ t.activity = s.activity) ∧
    ∀ addr : Word, t.mem.readByte addr = s.mem.readByte addr

/-- Rules R14 and R15: who writes Z and N, from which byte, and their reset values. -/
def Obligations.FlagsComeFromTheRegisterWritten : Prop :=
  (∀ (imm : Byte) (s t : State), exec (.lda imm) s = .next t →
    t.z = decide (t.a.toNat = 0) ∧ t.n = t.a.getLsbD 7) ∧
  (∀ s t : State, (exec .tax s = .next t ∨ exec .inx s = .next t) →
    t.z = decide (t.x.toNat = 0) ∧ t.n = t.x.getLsbD 7) ∧
  (∀ s t : State, exec .halt s = .next t → t.z = s.z ∧ t.n = s.n) ∧
  State.reset.z = false ∧ State.reset.n = false

/-- Rule R56: the next `PC` is `a + L`, or the instruction overflows and commits nothing. -/
def Obligations.EveryInstructionAdvancesByItsLength : Prop :=
  ∀ (i : Instr) (s : State),
    (s.pc.toNat + i.length ≤ 0xFFFF → ∃ t, exec i s = .next t ∧ t.pc.toNat = s.pc.toNat + i.length) ∧
    (0xFFFF < s.pc.toNat + i.length → exec i s = .fault (.addressOverflow s.pc))

/-- Repeated `INX`: `n` of them add `n` to `X` modulo 256, and the flags are those of the last result. -/
def Obligations.RepeatedIncrementsAddUp : Prop :=
  ∀ (n : Nat) (s : State), s.pc.toNat + n ≤ 0xFFFF →
    ∃ t, ExecTimes .inx n s t ∧ t.x.toNat = (s.x.toNat + n) % 256 ∧ t.pc.toNat = s.pc.toNat + n ∧
      t.a = s.a ∧ t.mem = s.mem ∧ (0 < n → t.p = flagUpdate s.p t.x)

/-! ### The step -/

/-- A step of a run below its bound executes the instruction that the bytes at `PC` decode to. -/
def Obligations.StepRunsTheDecodedInstruction : Prop :=
  ∀ (s : State) (codeEnd : CodeEnd) (i : Instr) (rest : List Byte),
    s.activity = .running codeEnd → boundReached codeEnd s.pc = false → s.pc.toNat < 0xFFFF →
    decode [s.mem.readByte s.pc, s.mem.readByte (BitVec.ofNat 16 (s.pc.toNat + 1))] = .ok (i, rest) →
    step s = exec i s

/-- The instruction word that the host places at `PC` is the one the next step runs (notes/assumptions/3.md). -/
def Obligations.PlacedWordIsExecutedNext : Prop :=
  ∀ (s : State) (nbits w : Nat) (i : Instr), s.mem.wf = true → s.pc.toNat < 0xFFFF →
    decodeTableWord nbits w = some i →
    step (s.withFetchWord nbits w) = exec i (s.withFetchWord nbits w) ∧
      (s.withFetchWord nbits w).pc = s.pc ∧ (s.withFetchWord nbits w).a = s.a ∧ (s.withFetchWord nbits w).x = s.x ∧
      (s.withFetchWord nbits w).p = s.p

/-- Rule R53: the bound check stops the run before the fetch, and never fires with `CODE_END = none`. -/
def Obligations.BoundCheckStopsBeforeTheFetch : Prop :=
  (∀ (s : State) (e : Fin 0x10001), s.activity = .running (some e) → e.val ≤ s.pc.toNat →
    step s = .next { s with result := .ok .endOfCode, activity := .stopped }) ∧
  (∀ (s t : State), s.activity = .running none → s.result ≠ .ok .endOfCode → step s = .next t →
    t.result ≠ .ok .endOfCode) ∧
  ∀ (s : State) (e : Fin 0x10001), s.activity = .running (some e) → s.pc.toNat < e.val →
    (∀ f, step s = .fault f ↔ step { s with activity := .running none } = .fault f) ∧
    ∀ t, step { s with activity := .running none } = .next t →
      ∃ t', step s = .next t' ∧ t'.a = t.a ∧ t'.x = t.x ∧ t'.p = t.p ∧ t'.pc = t.pc ∧ t'.mem = t.mem ∧
        t'.result = t.result

/-- Rule R80: the checks of a step in their order, and of `load_and_run` in theirs. -/
def Obligations.ChecksRunInPriorityOrder : Prop :=
  (∀ (s : State) (codeEnd : CodeEnd), s.activity = .running codeEnd →
    if boundReached codeEnd s.pc = true then
      step s = .next { s with result := .ok .endOfCode, activity := .stopped }
    else if s.pc = 0xFFFF then step s = .fault (.addressOverflow 0xFFFF)
    else if decodeEntry (s.mem.readByte s.pc) = none then
      step s = .fault (.unimplementedOpcode (s.mem.readByte s.pc))
    else if s.mem.readByte s.pc = 0xA9 ∧ s.pc = 0xFFFE then step s = .fault (.addressOverflow 0xFFFE)
    else ∃ t, step s = .next t) ∧
  ∀ (code : List Byte) (s : State), 65536 < code.length →
    (s.startLoadAndRun code).result = .err (.programTooLarge code.length)

/-- A stopped core's step keeps the state (notes/assumptions/2.md, the model's form of "takes no step"). -/
def Obligations.StoppedCoreTakesNoStep : Prop :=
  ∀ (s : State) (k : Nat), s.activity = .stopped → step s = .next s ∧ core.run k s = .next s

/-- No step is refused, and a fault is one of two: `AddressOverflow` of the opcode address at the top of memory, or
`UnimplementedOpcode` of an ILLEGAL byte at `PC`. -/
def Obligations.StepsAreNeverRefusedAndFaultInTwoWays : Prop :=
  ∀ s : State, (∀ r, step s ≠ .refused r) ∧ (SafeStep s ∨ ∃ f, step s = .fault f) ∧
    ∀ f, step s = .fault f →
      (f = .addressOverflow s.pc ∧ 0xFFFE ≤ s.pc.toNat) ∨
      (f = .unimplementedOpcode (s.mem.readByte s.pc) ∧ decodeEntry (s.mem.readByte s.pc) = none)

/-- Rule R74: an ILLEGAL byte ends the run with `UnimplementedOpcode` of that byte, `PC` at the byte, nothing else
written. -/
def Obligations.IllegalByteEndsTheRunPrecisely : Prop :=
  ∀ (s : State) (codeEnd : CodeEnd) (k : Nat), s.activity = .running codeEnd →
    boundReached codeEnd s.pc = false → s.pc.toNat < 0xFFFF → decodeEntry (s.mem.readByte s.pc) = none →
    step s = .fault (.unimplementedOpcode (s.mem.readByte s.pc)) ∧
    runLoop (k + 1) s =
      some { s with result := .err (.unimplementedOpcode (s.mem.readByte s.pc)), activity := .stopped }

/-- Rule R65: a step of a run moves `PC` by the length of the instruction it ran, 1 or 2, or stops at the bound with
`PC` as it was; an entry's bytes decide which. -/
def Obligations.NoStepTransfersControl : Prop :=
  ∀ (s t : State) (codeEnd : CodeEnd), s.activity = .running codeEnd → step s = .next t →
    t.pc = s.pc ∧ t.result = .ok .endOfCode ∧ t.activity = .stopped ∨
      ∃ ent, decodeEntry (s.mem.readByte s.pc) = some ent ∧ t.pc.toNat = s.pc.toNat + ent.length ∧
        (ent.length = 1 ∧ ent.mode = none ∨ ent.length = 2 ∧ ent.mode = some .immediate)

/-- Rule R67: the outcome of a step depends on `A`, `X`, `P`, `PC`, the bytes of `M` and `CODE_END` alone: states that
agree on these, and are both in a run, agree on the outcome, whatever `RESULT` an earlier call left. -/
def Obligations.StepDependsOnTheNamedStateAlone : Prop :=
  ∀ (s s' : State) (codeEnd : CodeEnd), s.activity = .running codeEnd → s'.activity = .running codeEnd →
    s'.a = s.a → s'.x = s.x → s'.p = s.p → s'.pc = s.pc → SameBytes s.mem s'.mem →
    (∀ f, step s = .fault f → step s' = .fault f) ∧
    ∀ t, step s = .next t → ∃ t', step s' = .next t' ∧ t'.a = t.a ∧ t'.x = t.x ∧ t'.p = t.p ∧ t'.pc = t.pc ∧
      t'.activity = t.activity ∧ SameBytes t.mem t'.mem ∧ (t.activity = .stopped → t'.result = t.result)

/-! ### Invariants -/

/-- The state after reset meets the invariant; that memory is held in canonical form is the model's choice
(notes/assumptions/4.md). -/
def Obligations.ResetMeetsTheStateInvariant : Prop := StateInv State.reset

/-- Every step keeps the invariant, from every state that meets it; the canonical form of memory is the model's choice
(notes/assumptions/4.md). -/
def Obligations.StepKeepsTheStateInvariant : Prop :=
  ∀ s t : State, StateInv s → step s = .next t → StateInv t

/-- Every sequence of host calls, loads and whole runs among them, keeps the invariant; the canonical form of memory is
the model's choice (notes/assumptions/4.md). -/
def Obligations.HostSessionsKeepTheStateInvariant : Prop :=
  ∀ (calls : List HostCall) (s t : State), StateInv s → hostSession calls s = some t → StateInv t

/-! ### Runs and the host -/

/-- The spec's step bound (its rule R68, derived there): from every state the loop ends within 0x10000 − PC steps, so
both entries always return. -/
def Obligations.EveryRunEndsWithinTheStepBound : Prop :=
  (∀ s : State, ∃ t, runLoop (0x10000 - s.pc.toNat) s = some t ∧ t.activity = .stopped) ∧
  (∀ (s : State) (codeEnd : CodeEnd), ∃ t, hostRun codeEnd s = some t ∧ t.activity = .stopped) ∧
  ∀ (s : State) (code : List Byte), ∃ t, loadAndRun code s = some t ∧ t.activity = .stopped

/-- The end of a run does not depend on the fuel it was given, once that is enough. -/
def Obligations.MoreFuelGivesTheSameEnd : Prop :=
  ∀ (k j : Nat) (s t : State), runLoop k s = some t → runLoop (k + j) s = some t

/-- Every run ends at rest in one of four ways, with memory as the run found it: halted just past a halt byte, at the
bound it was given, at an ILLEGAL byte, or at the top of memory. -/
def Obligations.RunsEndInOneOfFourWays : Prop :=
  ∀ (k : Nat) (s t : State) (codeEnd : CodeEnd), s.activity = .running codeEnd → runLoop k s = some t →
    t.activity = .stopped ∧ t.mem = s.mem ∧ s.pc.toNat ≤ t.pc.toNat ∧
    ((t.result = .ok .halted ∧ s.pc.toNat < t.pc.toNat ∧ s.mem.readByte (BitVec.ofNat 16 (t.pc.toNat - 1)) = 0x00) ∨
     (t.result = .ok .endOfCode ∧ ∃ e, codeEnd = some e ∧ e.val ≤ t.pc.toNat) ∨
     (t.result = .err (.unimplementedOpcode (s.mem.readByte t.pc)) ∧ decodeEntry (s.mem.readByte t.pc) = none) ∨
     (t.result = .err (.addressOverflow t.pc) ∧ 0xFFFE ≤ t.pc.toNat))

/-- Rule R16: `flag_update` passes the reserved bits through, no instruction writes them, whatever a run does they are
at its end what they were at its start, and they are 0 after reset. -/
def Obligations.ReservedBitsSurviveEveryRun : Prop :=
  (∀ old r : Byte, SameReserved old (flagUpdate old r)) ∧
  (∀ (i : Instr) (s t : State), exec i s = .next t → SameReserved s.p t.p) ∧
  (∀ (k : Nat) (s t : State), runLoop k s = some t → SameReserved s.p t.p) ∧
  SameReserved 0x00 State.reset.p

/-- Rule R79: an error of an instruction or of a load leaves `A`, `X`, `P`, `PC` and `M` as they were before it. -/
def Obligations.ErrorsArePrecise : Prop :=
  (∀ (s : State) (f : Fault) (k : Nat), step s = .fault f →
    runLoop (k + 1) s = some { s with result := .err f, activity := .stopped }) ∧
  (∀ (s : State) (data : List Byte) (origin : Word) (f : Fault), s.mem.load data origin = .error f →
    hostLoad data origin s = { s with result := .err f, activity := .stopped }) ∧
  ∀ (s : State) (code : List Byte), codeAccepted code = false →
    ∃ f, loadAndRun code s = some { s with result := .err f, activity := .stopped }

/-- Rules R77 and R92: `load_and_run` checks the length, loads at the origin, sets `PC` and runs with no bound. -/
def Obligations.LoadAndRunStartsAtTheOrigin : Prop :=
  ∀ (s : State) (code : List Byte), s.mem.wf = true →
    (65536 < code.length → loadAndRun code s =
      some { s with result := .err (.programTooLarge code.length), activity := .stopped }) ∧
    (32768 < code.length → code.length ≤ 65536 → loadAndRun code s =
      some { s with result := .err (.outOfBounds 0x8000 code.length), activity := .stopped }) ∧
    (code.length ≤ 32768 → ∃ m', loadAndRun code s =
        hostRun none { s with mem := m', pc := 0x8000 } ∧
      BytesAt m' 0x8000 code ∧
      ∀ other : Word, (other.toNat < 0x8000 ∨ 0x8000 + code.length ≤ other.toNat) →
        m'.readByte other = s.mem.readByte other)

/-- The spec's example of a direct `run` (its rule R91, derived there): from reset it halts with `PC` = 0x0001. -/
def Obligations.RunFromResetHaltsAtOne : Prop :=
  hostRun none State.reset = some { State.reset with pc := 0x0001, result := .ok .halted }

/-- The host never acts during a run (notes/assumptions/11.md); at rest every session of calls returns, at rest
again. -/
def Obligations.HostActsOnlyBetweenRuns : Prop :=
  (∀ (c : HostCall) (s : State) (codeEnd : CodeEnd), s.activity = .running codeEnd → hostCall c s = none) ∧
  ∀ (calls : List HostCall) (s : State), s.activity = .stopped →
    ∃ t, hostSession calls s = some t ∧ t.activity = .stopped

/-- Bytes below `PC` never matter: two states that agree on the registers, the run and every byte from `PC` on give
runs with the same observable end. -/
def Obligations.BytesBelowTheCounterNeverMatter : Prop :=
  ∀ (k : Nat) (s s' t : State), s'.a = s.a → s'.x = s.x → s'.p = s.p → s'.pc = s.pc →
    s'.result = s.result → s'.activity = s.activity →
    (∀ addr : Word, s.pc.toNat ≤ addr.toNat → s'.mem.readByte addr = s.mem.readByte addr) →
    runLoop k s = some t → ∃ t', runLoop k s' = some t' ∧ t'.observe = t.observe

/-- Refinement: any sequence without HALT of which the bytes and a halt byte after them end by 0xFFFE, encoded,
ended with a halt byte and given to `load_and_run`, runs to `Ok(Halted)` with the registers of the instruction-by-
instruction evaluation. -/
def Obligations.LoadedInstructionsRunAsWritten : Prop :=
  ∀ (is : List Instr) (s : State), s.mem.wf = true → Instr.halt ∉ is →
    (encodeProgram is).length + 1 ≤ 0x7FFF →
    ∃ t, loadAndRun (encodeProgram is ++ [0x00]) s = some t ∧ t.result = .ok .halted ∧ t.activity = .stopped ∧
      (t.a, t.x, t.p) = evalInstrs is (s.a, s.x, s.p) ∧
      t.pc.toNat = 0x8000 + (encodeProgram is).length + 1 ∧
      BytesAt t.mem 0x8000 (encodeProgram is ++ [0x00])

/-- The spec's numbering of the errors (rule R73, 92_eei_decisions.md D9). -/
def Obligations.ErrorCodesFollowTheTaxonomy : Prop :=
  (∀ op, (Fault.unimplementedOpcode op).code = 1) ∧ (∀ addr, (Fault.addressOverflow addr).code = 2) ∧
    (∀ addr n, (Fault.outOfBounds addr n).code = 3) ∧ ∀ n, (Fault.programTooLarge n).code = 4
end

