-- ==== Sys2Proof/Laws/Decode.lean ====
section
/-! SUPPORT. The decoder by cases: what it accepts, byte for byte. -/

namespace Sys2Proof

/-- The entry of each mnemonic's opcode byte. -/
theorem decodeEntry_opcodeOf (m : Mnemonic) :
    decodeEntry (opcodeOf m) =
      some { mnemonic := m,
             mode := if m = .lda then some .immediate else none,
             length := if m = .lda then 2 else 1 } := by
  cases m <;> rfl

/-- A legal entry comes from its mnemonic's own opcode byte. -/
theorem decodeEntry_some {op : Byte} {ent : DecoderEntry} (h : decodeEntry op = some ent) :
    op = opcodeOf ent.mnemonic := by
  simp only [decodeEntry, opcodeMap, lookupOpcode] at h
  split at h
  · cases h; exact Eq.symm ‹_›
  · split at h
    · cases h; exact Eq.symm ‹_›
    · split at h
      · cases h; exact Eq.symm ‹_›
      · split at h
        · cases h; exact Eq.symm ‹_›
        · cases h

/-- Whatever the decoder accepts is the instruction's own encoding, followed by the bytes it leaves. -/
theorem decode_ok {bytes rest : List Byte} {i : Instr} (h : decode bytes = .ok (i, rest)) :
    bytes = encode i ++ rest := by
  cases bytes with
  | nil => cases h
  | cons op tail =>
    simp only [decode] at h
    split at h
    · cases h
    · rename_i ent he
      have hop := decodeEntry_some he
      cases hm : ent.mnemonic with
      | lda =>
        cases tail with
        | nil => simp [hm, takeOperand] at h
        | cons imm tail =>
          simp [hm, takeOperand] at h
          simp [← h.1, ← h.2, encode, hop, hm]
      | _ =>
        simp [hm, takeOperand] at h
        simp [← h.1, ← h.2, encode, hop, hm]

/-- An instruction's encoding has its length. -/
@[simp] theorem encode_length (i : Instr) : (encode i).length = i.length := by cases i <;> rfl

end Sys2Proof
end

