-- ==== Sys2Proof/Laws/Flags.lean ====
section
/-! SUPPORT. `flag_update` bit by bit. -/

namespace Sys2Proof.Machine

/-- Which bits the reserved mask keeps. -/
theorem reservedMask_getLsbD (k : Nat) :
    reservedMask.getLsbD k = (decide (k < 8) && !decide (k = 1) && !decide (k = 7)) := by
  by_cases h : k < 8
  · interval_cases k <;> rfl
  · rw [BitVec.getLsbD_of_ge _ _ (by omega)]
    simp [h]

/-- Where Z's contribution has a bit. -/
theorem zeroBit_getLsbD (r : Byte) (k : Nat) : (zeroBit r).getLsbD k = (decide (r = 0) && decide (k = 1)) := by
  unfold zeroBit
  by_cases hk : k < 8
  · split <;> interval_cases k <;> simp_all
  · rw [BitVec.getLsbD_of_ge _ _ (by omega)]
    simp; omega

/-- Where N's contribution has a bit. -/
theorem negativeBit_getLsbD (r : Byte) (k : Nat) :
    (negativeBit r).getLsbD k = (r.getLsbD 7 && decide (k = 7)) := by
  unfold negativeBit
  by_cases hk : k < 8
  · split <;> interval_cases k <;> simp_all
  · rw [BitVec.getLsbD_of_ge _ _ (by omega)]
    simp; omega

theorem flagUpdate_getLsbD (old r : Byte) (k : Nat) :
    (flagUpdate old r).getLsbD k =
      ((old.getLsbD k && (decide (k < 8) && !decide (k = 1) && !decide (k = 7))) ||
        (r.getLsbD 7 && decide (k = 7)) || (decide (r = 0) && decide (k = 1))) := by
  simp only [flagUpdate, BitVec.getLsbD_or, BitVec.getLsbD_and, reservedMask_getLsbD, negativeBit_getLsbD,
    zeroBit_getLsbD]

end Sys2Proof.Machine
end

