-- ==== Sys2Proof/Laws/Memory.lean ====
section
/-! SUPPORT. The listing that holds memory: reading after an insertion, the canonical form, and what each memory
operation keeps. -/

namespace Sys2Proof.Machine.Memory

/-! ### The canonical form -/

theorem wfFrom_cons {lo k : Nat} {v : Byte} {rest : Memory} :
    wfFrom lo ((k, v) :: rest) = true ↔
      lo ≤ k ∧ k < Config.memSize ∧ v ≠ Config.memoryFill ∧ wfFrom (k + 1) rest = true := by
  simp [wfFrom, and_assoc]

theorem wfFrom_mono {lo lo' : Nat} {m : Memory} (h : wfFrom lo m = true) (hle : lo' ≤ lo) :
    wfFrom lo' m = true := by
  cases m with
  | nil => rfl
  | cons c rest =>
    obtain ⟨k, v⟩ := c
    rw [wfFrom_cons] at h ⊢
    exact ⟨hle.trans h.1, h.2⟩

/-- Below its first address a canonical listing reads as the fill. -/
theorem lookup_below {lo a : Nat} {m : Memory} (h : wfFrom lo m = true) (ha : a < lo) :
    m.lookup a = Config.memoryFill := by
  induction m generalizing lo with
  | nil => rfl
  | cons c rest ih =>
    obtain ⟨k, v⟩ := c
    rw [wfFrom_cons] at h
    rw [lookup, if_neg (by omega)]
    exact ih h.2.2.2 (by omega)

/-! ### Insertion -/

theorem lookup_consCell {a b : Nat} {v : Byte} {rest : Memory} (h : wfFrom (a + 1) rest = true) :
    lookup (consCell a v rest) b = if b = a then v else rest.lookup b := by
  unfold consCell
  split
  · rename_i hv
    split
    · subst_vars; exact lookup_below h (by omega)
    · rfl
  · simp only [lookup, eq_comm]

theorem wfFrom_consCell {lo a : Nat} {v : Byte} {rest : Memory} (hlo : lo ≤ a) (ha : a < Config.memSize)
    (h : wfFrom (a + 1) rest = true) : wfFrom lo (consCell a v rest) = true := by
  unfold consCell
  split
  · exact wfFrom_mono h (by omega)
  · exact wfFrom_cons.2 ⟨hlo, ha, ‹_›, h⟩

theorem wfFrom_insert {lo a : Nat} {v : Byte} {m : Memory} (hm : wfFrom lo m = true) (hlo : lo ≤ a)
    (ha : a < Config.memSize) : wfFrom lo (m.insert a v) = true := by
  induction m generalizing lo with
  | nil => exact wfFrom_consCell hlo ha rfl
  | cons c rest ih =>
    obtain ⟨k, w⟩ := c
    have hc := wfFrom_cons.1 hm
    unfold insert
    split
    · exact wfFrom_consCell hlo ha (wfFrom_cons.2 ⟨by omega, hc.2⟩)
    · split
      · subst_vars; exact wfFrom_consCell hlo ha hc.2.2.2
      · exact wfFrom_cons.2 ⟨hc.1, hc.2.1, hc.2.2.1, ih hc.2.2.2 (by omega)⟩

/-- Reading after an insertion: the new byte at its address, the old one elsewhere. -/
theorem lookup_insert {lo a b : Nat} {v : Byte} {m : Memory} (hm : wfFrom lo m = true) :
    (m.insert a v).lookup b = if b = a then v else m.lookup b := by
  induction m generalizing lo with
  | nil => exact lookup_consCell rfl
  | cons c rest ih =>
    obtain ⟨k, w⟩ := c
    have hc := wfFrom_cons.1 hm
    unfold insert
    split
    · exact lookup_consCell (wfFrom_cons.2 ⟨by omega, hc.2⟩)
    · split
      · subst_vars
        rw [lookup_consCell hc.2.2.2, lookup]
        by_cases hb : b = k
        · simp [hb]
        · rw [if_neg hb, if_neg hb, if_neg (Ne.symm hb)]
      · rename_i h1 h2
        rw [lookup, lookup, ih hc.2.2.2]
        by_cases hk : k = b
        · rw [if_pos hk, if_pos hk, if_neg (by omega)]
        · rw [if_neg hk, if_neg hk]

/-! ### The byte and word operations -/

theorem writeByte_wf {m : Memory} (h : m.wf = true) (a : Word) (v : Byte) : (m.writeByte a v).wf = true :=
  wfFrom_insert h (Nat.zero_le _) a.isLt

theorem readByte_writeByte {m : Memory} (h : m.wf = true) (a b : Word) (v : Byte) :
    (m.writeByte a v).readByte b = if b = a then v else m.readByte b := by
  unfold readByte writeByte
  rw [lookup_insert h]
  simp only [BitVec.toNat_inj]

/-- The two bytes of a word put together again. -/
theorem highByte_append_lowByte (v : Word) : (highByte v ++ lowByte v : BitVec (8 + 8)) = v := by
  apply BitVec.eq_of_getLsbD_eq
  intro i hi
  simp only [highByte, lowByte, BitVec.getLsbD_append, BitVec.getLsbD_extractLsb']
  by_cases h : i < 8
  · simp [h]
  · simp [h, show i - 8 < 8 by omega, show 8 + (i - 8) = i by omega]

/-- A word is its low byte plus 256 times its high byte. -/
theorem toNat_append (hi lo : Byte) : (hi ++ lo : BitVec (8 + 8)).toNat = lo.toNat + 256 * hi.toNat := by
  rw [BitVec.toNat_append, Nat.shiftLeft_eq, Nat.mul_comm, ← Nat.two_pow_add_eq_or_of_lt lo.isLt]
  omega

theorem succ_ne_self (a : Word) : a + 1 ≠ a := by
  intro h
  have : (a + 1).toNat = a.toNat := by rw [h]
  rw [BitVec.toNat_add] at this
  have := a.isLt
  simp at *

theorem succ_toNat {a : Word} (h : a ≠ 0xFFFF) : (a + 1).toNat = a.toNat + 1 := by
  have h1 : a.toNat ≠ 0xFFFF := fun h' => h (BitVec.eq_of_toNat_eq h')
  have := a.isLt
  rw [BitVec.toNat_add]
  simp
  omega

/-! ### The loader -/

theorem writeBytes_wf {m : Memory} (h : m.wf = true) (a : Nat) (bs : List Byte) :
    (m.writeBytes a bs).wf = true := by
  induction bs generalizing m a with
  | nil => exact h
  | cons b bs ih => exact ih (writeByte_wf h _ _) _

/-- What a sequence of byte writes at rising addresses leaves at each address, while they stay inside the array. -/
theorem readByte_writeBytes {m : Memory} (h : m.wf = true) {a : Nat} {bs : List Byte}
    (hfit : a + bs.length ≤ Config.memSize) (c : Word) :
    (m.writeBytes a bs).readByte c =
      if hk : a ≤ c.toNat ∧ c.toNat < a + bs.length then bs[c.toNat - a]'(by omega) else m.readByte c := by
  induction bs generalizing m a with
  | nil =>
    rw [dif_neg (by simp)]
    rfl
  | cons b bs ih =>
    have hfit' : a + 1 + bs.length ≤ Config.memSize := by simp at hfit; omega
    have ha : a < 65536 := by simp [Config.memSize] at hfit; omega
    have hto : (BitVec.ofNat 16 a).toNat = a := by simp; omega
    rw [writeBytes, ih (writeByte_wf h _ _) hfit', readByte_writeByte h]
    by_cases hc : c = BitVec.ofNat 16 a
    · have hca : c.toNat = a := by rw [hc, hto]
      rw [dif_neg (by omega), if_pos hc, dif_pos (by simp; omega)]
      simp [hca]
    · have hca : c.toNat ≠ a := fun e => hc (BitVec.eq_of_toNat_eq (by rw [hto, e]))
      by_cases hin : a + 1 ≤ c.toNat ∧ c.toNat < a + 1 + bs.length
      · rw [dif_pos hin, dif_pos (by simp; omega)]
        have : c.toNat - a = (c.toNat - (a + 1)) + 1 := by omega
        simp [this]
      · rw [dif_neg hin, if_neg hc, dif_neg (by simp; omega)]

/-- Everything `load` can answer. -/
theorem load_cases (m : Memory) (data : List Byte) (origin : Word) :
    (Config.memSize < origin.toNat + data.length ∧
        m.load data origin = .error (.outOfBounds origin data.length)) ∨
      (origin.toNat + data.length ≤ Config.memSize ∧
        m.load data origin = .ok (m.writeBytes origin.toNat data)) := by
  unfold load
  split
  · exact .inl ⟨‹_›, rfl⟩
  · exact .inr ⟨Nat.le_of_not_lt ‹_›, rfl⟩

end Sys2Proof.Machine.Memory
end

