-- ==== Sys2Proof/Laws/State.lean ====
section
/-! SUPPORT. One lemma per field per named update of State, each true by rfl. -/

namespace Sys2Proof.Machine.State

/-! `setA` -/

@[simp] theorem setA_a (s : State) (v : Byte) : (s.setA v).a = v := rfl
@[simp] theorem setA_x (s : State) (v : Byte) : (s.setA v).x = s.x := rfl
@[simp] theorem setA_p (s : State) (v : Byte) : (s.setA v).p = s.p := rfl
@[simp] theorem setA_pc (s : State) (v : Byte) : (s.setA v).pc = s.pc := rfl
@[simp] theorem setA_mem (s : State) (v : Byte) : (s.setA v).mem = s.mem := rfl
@[simp] theorem setA_result (s : State) (v : Byte) : (s.setA v).result = s.result := rfl
@[simp] theorem setA_activity (s : State) (v : Byte) : (s.setA v).activity = s.activity := rfl

/-! `setX` -/

@[simp] theorem setX_a (s : State) (v : Byte) : (s.setX v).a = s.a := rfl
@[simp] theorem setX_x (s : State) (v : Byte) : (s.setX v).x = v := rfl
@[simp] theorem setX_p (s : State) (v : Byte) : (s.setX v).p = s.p := rfl
@[simp] theorem setX_pc (s : State) (v : Byte) : (s.setX v).pc = s.pc := rfl
@[simp] theorem setX_mem (s : State) (v : Byte) : (s.setX v).mem = s.mem := rfl
@[simp] theorem setX_result (s : State) (v : Byte) : (s.setX v).result = s.result := rfl
@[simp] theorem setX_activity (s : State) (v : Byte) : (s.setX v).activity = s.activity := rfl

/-! `setP` -/

@[simp] theorem setP_a (s : State) (v : Byte) : (s.setP v).a = s.a := rfl
@[simp] theorem setP_x (s : State) (v : Byte) : (s.setP v).x = s.x := rfl
@[simp] theorem setP_p (s : State) (v : Byte) : (s.setP v).p = v := rfl
@[simp] theorem setP_pc (s : State) (v : Byte) : (s.setP v).pc = s.pc := rfl
@[simp] theorem setP_mem (s : State) (v : Byte) : (s.setP v).mem = s.mem := rfl
@[simp] theorem setP_result (s : State) (v : Byte) : (s.setP v).result = s.result := rfl
@[simp] theorem setP_activity (s : State) (v : Byte) : (s.setP v).activity = s.activity := rfl

/-! `setPc` -/

@[simp] theorem setPc_a (s : State) (v : Word) : (s.setPc v).a = s.a := rfl
@[simp] theorem setPc_x (s : State) (v : Word) : (s.setPc v).x = s.x := rfl
@[simp] theorem setPc_p (s : State) (v : Word) : (s.setPc v).p = s.p := rfl
@[simp] theorem setPc_pc (s : State) (v : Word) : (s.setPc v).pc = v := rfl
@[simp] theorem setPc_mem (s : State) (v : Word) : (s.setPc v).mem = s.mem := rfl
@[simp] theorem setPc_result (s : State) (v : Word) : (s.setPc v).result = s.result := rfl
@[simp] theorem setPc_activity (s : State) (v : Word) : (s.setPc v).activity = s.activity := rfl

/-! `setMem` -/

@[simp] theorem setMem_a (s : State) (v : Memory) : (s.setMem v).a = s.a := rfl
@[simp] theorem setMem_x (s : State) (v : Memory) : (s.setMem v).x = s.x := rfl
@[simp] theorem setMem_p (s : State) (v : Memory) : (s.setMem v).p = s.p := rfl
@[simp] theorem setMem_pc (s : State) (v : Memory) : (s.setMem v).pc = s.pc := rfl
@[simp] theorem setMem_mem (s : State) (v : Memory) : (s.setMem v).mem = v := rfl
@[simp] theorem setMem_result (s : State) (v : Memory) : (s.setMem v).result = s.result := rfl
@[simp] theorem setMem_activity (s : State) (v : Memory) : (s.setMem v).activity = s.activity := rfl

/-! `setResult` -/

@[simp] theorem setResult_a (s : State) (v : RunResult) : (s.setResult v).a = s.a := rfl
@[simp] theorem setResult_x (s : State) (v : RunResult) : (s.setResult v).x = s.x := rfl
@[simp] theorem setResult_p (s : State) (v : RunResult) : (s.setResult v).p = s.p := rfl
@[simp] theorem setResult_pc (s : State) (v : RunResult) : (s.setResult v).pc = s.pc := rfl
@[simp] theorem setResult_mem (s : State) (v : RunResult) : (s.setResult v).mem = s.mem := rfl
@[simp] theorem setResult_result (s : State) (v : RunResult) : (s.setResult v).result = v := rfl
@[simp] theorem setResult_activity (s : State) (v : RunResult) : (s.setResult v).activity = s.activity := rfl

/-! `setActivity` -/

@[simp] theorem setActivity_a (s : State) (v : Activity) : (s.setActivity v).a = s.a := rfl
@[simp] theorem setActivity_x (s : State) (v : Activity) : (s.setActivity v).x = s.x := rfl
@[simp] theorem setActivity_p (s : State) (v : Activity) : (s.setActivity v).p = s.p := rfl
@[simp] theorem setActivity_pc (s : State) (v : Activity) : (s.setActivity v).pc = s.pc := rfl
@[simp] theorem setActivity_mem (s : State) (v : Activity) : (s.setActivity v).mem = s.mem := rfl
@[simp] theorem setActivity_result (s : State) (v : Activity) : (s.setActivity v).result = s.result := rfl
@[simp] theorem setActivity_activity (s : State) (v : Activity) : (s.setActivity v).activity = v := rfl

/-! `endCall` -/

@[simp] theorem endCall_a (s : State) (r : RunResult) : (s.endCall r).a = s.a := rfl
@[simp] theorem endCall_x (s : State) (r : RunResult) : (s.endCall r).x = s.x := rfl
@[simp] theorem endCall_p (s : State) (r : RunResult) : (s.endCall r).p = s.p := rfl
@[simp] theorem endCall_pc (s : State) (r : RunResult) : (s.endCall r).pc = s.pc := rfl
@[simp] theorem endCall_mem (s : State) (r : RunResult) : (s.endCall r).mem = s.mem := rfl
@[simp] theorem endCall_result (s : State) (r : RunResult) : (s.endCall r).result = r := rfl
@[simp] theorem endCall_activity (s : State) (r : RunResult) : (s.endCall r).activity = .stopped := rfl

/-! `writeBack`, for each register -/

@[simp] theorem writeBack_pc (s : State) (r : Reg) (v : Byte) (n : Word) : (s.writeBack r v n).pc = n := rfl
@[simp] theorem writeBack_a_a (s : State) (v : Byte) (n : Word) : (s.writeBack .a v n).a = v := rfl
@[simp] theorem writeBack_a_x (s : State) (v : Byte) (n : Word) : (s.writeBack .a v n).x = s.x := rfl
@[simp] theorem writeBack_x_a (s : State) (v : Byte) (n : Word) : (s.writeBack .x v n).a = s.a := rfl
@[simp] theorem writeBack_x_x (s : State) (v : Byte) (n : Word) : (s.writeBack .x v n).x = v := rfl
@[simp] theorem writeBack_p (s : State) (r : Reg) (v : Byte) (n : Word) :
    (s.writeBack r v n).p = flagUpdate s.p v := by cases r <;> rfl
@[simp] theorem writeBack_mem (s : State) (r : Reg) (v : Byte) (n : Word) :
    (s.writeBack r v n).mem = s.mem := by cases r <;> rfl
@[simp] theorem writeBack_result (s : State) (r : Reg) (v : Byte) (n : Word) :
    (s.writeBack r v n).result = s.result := by cases r <;> rfl
@[simp] theorem writeBack_activity (s : State) (r : Reg) (v : Byte) (n : Word) :
    (s.writeBack r v n).activity = s.activity := by cases r <;> rfl

end Sys2Proof.Machine.State
end

