-- ==== Sys2Proof/Laws/Ops.lean ====
section
/-! SUPPORT. What each shared operation and each meaning can answer, said once. -/

namespace Sys2Proof.Machine

/-! ### The advance of `PC` -/

theorem advance_ok {a : Word} {n : Nat} (h : a.toNat + n ≤ 0xFFFF) :
    advance a n = .ok (BitVec.ofNat 16 (a.toNat + n)) :=
  if_neg (Nat.not_lt.2 h)

theorem advance_error {a : Word} {n : Nat} (h : 0xFFFF < a.toNat + n) :
    advance a n = .error (.addressOverflow a) :=
  if_pos h

/-- An advanced position is the exact sum. -/
theorem advanced_toNat {a : Word} {n : Nat} (h : a.toNat + n ≤ 0xFFFF) :
    (BitVec.ofNat 16 (a.toNat + n)).toNat = a.toNat + n := by
  rw [BitVec.toNat_ofNat]
  omega

/-! ### Finishing an instruction -/

theorem retire_next {s : State} {len : Nat} {commit : Word → StepOutcome} (h : s.pc.toNat + len ≤ 0xFFFF) :
    retire s len commit = commit (BitVec.ofNat 16 (s.pc.toNat + len)) := by
  simp only [retire, advance_ok h]

theorem retire_fault {s : State} {len : Nat} {commit : Word → StepOutcome} (h : 0xFFFF < s.pc.toNat + len) :
    retire s len commit = .fault (.addressOverflow s.pc) := by
  simp only [retire, advance_error h, raise]

/-! ### The meanings -/

theorem execLda_next {s : State} (imm : Byte) (h : s.pc.toNat + 2 ≤ 0xFFFF) :
    execLda imm s = .next (s.writeBack .a imm (BitVec.ofNat 16 (s.pc.toNat + 2))) := by
  rw [execLda, retire_next h]; rfl

theorem execTax_next {s : State} (h : s.pc.toNat + 1 ≤ 0xFFFF) :
    execTax s = .next (s.writeBack .x s.a (BitVec.ofNat 16 (s.pc.toNat + 1))) := by
  rw [execTax, retire_next h]; rfl

theorem execInx_next {s : State} (h : s.pc.toNat + 1 ≤ 0xFFFF) :
    execInx s = .next (s.writeBack .x (aluInc s.x) (BitVec.ofNat 16 (s.pc.toNat + 1))) := by
  rw [execInx, retire_next h]

theorem execHalt_next {s : State} (h : s.pc.toNat + 1 ≤ 0xFFFF) :
    execHalt s = .next ((s.setPc (BitVec.ofNat 16 (s.pc.toNat + 1))).endCall (.ok .halted)) := by
  rw [execHalt, retire_next h]; rfl

/-- The state an instruction commits when it fits below the top of memory. -/
def committed (i : Instr) (s : State) : State :=
  match i with
  | .halt => (s.setPc (BitVec.ofNat 16 (s.pc.toNat + 1))).endCall (.ok .halted)
  | .lda imm => s.writeBack .a imm (BitVec.ofNat 16 (s.pc.toNat + 2))
  | .tax => s.writeBack .x s.a (BitVec.ofNat 16 (s.pc.toNat + 1))
  | .inx => s.writeBack .x (aluInc s.x) (BitVec.ofNat 16 (s.pc.toNat + 1))

/-- Everything an instruction can answer: it overflows and commits nothing, or it fits and commits. -/
theorem exec_cases (i : Instr) (s : State) :
    (0xFFFF < s.pc.toNat + i.length ∧ exec i s = .fault (.addressOverflow s.pc)) ∨
      (s.pc.toNat + i.length ≤ 0xFFFF ∧ exec i s = .next (committed i s)) := by
  rcases Nat.lt_or_ge 0xFFFF (s.pc.toNat + i.length) with h | h
  · refine .inl ⟨h, ?_⟩
    cases i with
    | halt => exact retire_fault h
    | lda imm => exact retire_fault h
    | tax => exact retire_fault h
    | inx => exact retire_fault h
  · refine .inr ⟨h, ?_⟩
    cases i with
    | halt => exact execHalt_next h
    | lda imm => exact execLda_next imm h
    | tax => exact execTax_next h
    | inx => exact execInx_next h

/-- A next state is the committed one. -/
theorem exec_next_inv {i : Instr} {s t : State} (h : exec i s = .next t) :
    s.pc.toNat + i.length ≤ 0xFFFF ∧ t = committed i s := by
  rcases exec_cases i s with ⟨_, h'⟩ | ⟨hle, h'⟩
  · rw [h'] at h; cases h
  · rw [h'] at h
    cases h
    exact ⟨hle, rfl⟩

@[simp] theorem committed_mem (i : Instr) (s : State) : (committed i s).mem = s.mem := by
  cases i <;> simp [committed]

theorem committed_pc (i : Instr) (s : State) :
    (committed i s).pc = BitVec.ofNat 16 (s.pc.toNat + i.length) := by
  cases i <;> rfl

/-! ### The bound check -/

@[simp] theorem boundReached_none (pc : Word) : boundReached none pc = false := rfl

theorem boundReached_some {e : Fin 0x10001} {pc : Word} :
    boundReached (some e) pc = true ↔ e.val ≤ pc.toNat := by
  simp [boundReached]

end Sys2Proof.Machine
end

