-- ==== Sys2Proof/Laws/PerInstr.lean ====
section
/-! SUPPORT. Statements about every instruction, one lemma per constructor. -/

namespace Sys2Proof.Laws

namespace OpcodeRow

/-- An instruction's first byte has a row of the opcode map with the instruction's mnemonic and length, and the
bytes that follow it are the ones the row's mode consumes. -/
def Statement (i : Instr) : Prop :=
  ∃ op operands ent, encode i = op :: operands ∧ decodeEntry op = some ent ∧ ent.mnemonic = i.mnemonic ∧
    ent.length = i.length ∧ operands.length = operandByteCount ent.mode

theorem halt : Statement .halt := ⟨_, _, _, rfl, rfl, rfl, rfl, rfl⟩
theorem lda (imm : Byte) : Statement (.lda imm) := ⟨_, _, _, rfl, rfl, rfl, rfl, rfl⟩
theorem tax : Statement .tax := ⟨_, _, _, rfl, rfl, rfl, rfl, rfl⟩
theorem inx : Statement .inx := ⟨_, _, _, rfl, rfl, rfl, rfl, rfl⟩

end OpcodeRow

end Sys2Proof.Laws
end

