-- ==== Sys2Proof/Laws/Step.lean ====
section
/-! SUPPORT. Everything the fetch unit and one step can answer. -/

namespace Sys2Proof.Machine

/-- Everything `fetch` can answer.  The operand byte of the accepted instruction is at `PC + 1`. -/
theorem fetch_cases (s : State) :
    (s.pc.toNat = 0xFFFF ∧ fetch s = .error (.addressOverflow s.pc)) ∨
      (s.pc.toNat < 0xFFFF ∧ decodeEntry (s.mem.readByte s.pc) = none ∧
        fetch s = .error (.unimplementedOpcode (s.mem.readByte s.pc))) ∨
      (s.pc.toNat < 0xFFFF ∧ ∃ i rest, fetch s = .ok i ∧
        decode [s.mem.readByte s.pc, s.mem.readByte (BitVec.ofNat 16 (s.pc.toNat + 1))] = .ok (i, rest)) := by
  have hlt := s.pc.isLt
  by_cases htop : s.pc.toNat = 0xFFFF
  · refine .inl ⟨htop, ?_⟩
    simp only [fetch, advance_error (a := s.pc) (n := 1) (by omega)]
  · have hle : s.pc.toNat + 1 ≤ 0xFFFF := by omega
    refine .inr ?_
    cases he : decodeEntry (s.mem.readByte s.pc) with
    | none =>
      refine .inl ⟨by omega, rfl, ?_⟩
      simp only [fetch, advance_ok hle, he]
    | some ent =>
      refine .inr ⟨by omega, ?_⟩
      have hop := decodeEntry_some he
      have hent := decodeEntry_opcodeOf ent.mnemonic
      rw [← hop, he] at hent
      cases hm : ent.mnemonic <;> rw [hm] at hop hent <;> cases hent <;>
        simp only [fetch, advance_ok hle, he, decodeWithOperand, operandBytes, resolve, decode] <;>
        exact ⟨_, _, rfl, rfl⟩

/-- What one step of a run answers below its bound. -/
theorem step_running {s : State} {codeEnd : CodeEnd} (h : s.activity = .running codeEnd)
    (hb : boundReached codeEnd s.pc = false) :
    step s = match fetch s with
      | .error e => .fault e
      | .ok i => exec i s := by
  simp only [step, h, hb, raise]
  rfl

theorem step_bound {s : State} {codeEnd : CodeEnd} (h : s.activity = .running codeEnd)
    (hb : boundReached codeEnd s.pc = true) : step s = .next (s.endCall (.ok .endOfCode)) := by
  simp only [step, h, hb, stop]
  rfl

theorem step_stopped {s : State} (h : s.activity = .stopped) : step s = .next s := by
  simp only [step, h]

/-- Everything a step can answer. -/
theorem step_cases (s : State) :
    (s.activity = .stopped ∧ step s = .next s) ∨
      ∃ codeEnd, s.activity = .running codeEnd ∧
        ((boundReached codeEnd s.pc = true ∧ step s = .next (s.endCall (.ok .endOfCode))) ∨
          (boundReached codeEnd s.pc = false ∧
            ((s.pc.toNat = 0xFFFF ∧ step s = .fault (.addressOverflow s.pc)) ∨
              (s.pc.toNat < 0xFFFF ∧ decodeEntry (s.mem.readByte s.pc) = none ∧
                step s = .fault (.unimplementedOpcode (s.mem.readByte s.pc))) ∨
              (s.pc.toNat < 0xFFFF ∧ ∃ i rest,
                decode [s.mem.readByte s.pc, s.mem.readByte (BitVec.ofNat 16 (s.pc.toNat + 1))] = .ok (i, rest) ∧
                step s = exec i s)))) := by
  cases ha : s.activity with
  | stopped => exact .inl ⟨rfl, step_stopped ha⟩
  | running codeEnd =>
    refine .inr ⟨codeEnd, rfl, ?_⟩
    cases hb : boundReached codeEnd s.pc with
    | true => exact .inl ⟨rfl, step_bound ha hb⟩
    | false =>
      refine .inr ⟨rfl, ?_⟩
      have hs := step_running ha hb
      rcases fetch_cases s with ⟨h, hf⟩ | ⟨h, hd, hf⟩ | ⟨h, i, rest, hf, hd⟩
      · exact .inl ⟨h, by rw [hs, hf]⟩
      · exact .inr (.inl ⟨h, hd, by rw [hs, hf]⟩)
      · exact .inr (.inr ⟨h, i, rest, hd, by rw [hs, hf]⟩)

end Sys2Proof.Machine
end

