-- ==== Sys2Proof/Laws/Run.lean ====
section
/-! SUPPORT. The loop, one unfolding at a time. -/

namespace Sys2Proof.Machine

@[simp] theorem runLoop_stopped {s : State} (h : s.activity = .stopped) (k : Nat) : runLoop k s = some s := by
  cases k <;> simp [runLoop, h]

theorem runLoop_succ {s : State} (h : s.activity ≠ .stopped) (k : Nat) :
    runLoop (k + 1) s = match step s with
      | .next s' => runLoop k s'
      | .fault e => some (s.endCall (.err e))
      | .refused _ => none := by
  cases hs : step s <;> simp [runLoop, h, hs]

end Sys2Proof.Machine
end

