-- ==== Sys2Proof/Tests/Slice0.lean ====
section
/-! SUPPORT. The model's own tests.  Expected results come from the spec: 95_test_vectors.md (its ids are named) and
the encodings of 30_encoding.md.  The witnesses show that the hypotheses of a statement can be met together, clause by
clause. -/

namespace Sys2Proof.Tests

open Sys2Proof.Machine

/-! ### Small states -/

/-- A run in progress at `pc`, with bytes placed there and the registers given. -/
def running (pc : Word) (bytes : List Byte) (a x p : Byte) (codeEnd : CodeEnd) : State :=
  { a := a, x := x, p := p, pc := pc, mem := Memory.writeBytes [] pc.toNat bytes, result := .none,
    activity := .running codeEnd }

/-- The next state of an outcome, if it is one. -/
def nextOf : StepOutcome → Option State
  | .next s => some s
  | .fault _ => none
  | .refused _ => none

/-- The error of an outcome, if it is one. -/
def faultOf : StepOutcome → Option Fault
  | .next _ => none
  | .fault e => some e
  | .refused _ => none

/-- `A`, `X`, `P` and `PC` of a next state. -/
def regsOf (o : StepOutcome) : Option (Byte × Byte × Byte × Word) :=
  (nextOf o).map fun s => (s.a, s.x, s.p, s.pc)

/-! ### Well-formedness: each check refuses an ill-formed term -/

theorem test_lda_does_not_fit_at_fffe : Instr.fitsAt (.lda 0x10) 0xFFFE = false := by decide
theorem test_halt_does_not_fit_at_ffff : Instr.fitsAt .halt 0xFFFF = false := by decide
theorem test_lda_fits_at_fffd : Instr.fitsAt (.lda 0x10) 0xFFFD = true := by decide
theorem test_three_bytes_do_not_fit_from_fffe : fitsFrom 0xFFFE [0x01, 0x02, 0x03] = false := by decide
theorem test_three_bytes_fit_from_fffd : fitsFrom 0xFFFD [0x01, 0x02, 0x03] = true := by decide

theorem test_code_over_both_bounds_is_refused :
    codeAccepted (List.replicate 32769 0x00) = false ∧ codeAccepted (List.replicate 65537 0x00) = false := by
  simp only [codeAccepted, fitsFrom, List.length_replicate]
  decide

theorem test_code_of_half_the_space_is_accepted : codeAccepted (List.replicate 32768 0x00) = true := by
  simp only [codeAccepted, fitsFrom, List.length_replicate]
  decide

theorem test_unordered_memory_is_ill_formed : Memory.wf [(5, 1), (4, 1)] = false := by decide
theorem test_listed_zero_is_ill_formed : Memory.wf [(5, 0)] = false := by decide
theorem test_address_past_the_end_is_ill_formed : Memory.wf [(65536, 1)] = false := by decide

/-! ### Decoding, each word bit by bit from 30_encoding.md rules R42 and R46 -/

theorem test_decode_halt : decode [0b00000000] = .ok (.halt, []) := by decide
theorem test_decode_lda : decode [0b10101001, 0b11000000] = .ok (.lda 0xC0, []) := by decide
theorem test_decode_tax : decode [0b10101010] = .ok (.tax, []) := by decide
theorem test_decode_inx : decode [0b11101000] = .ok (.inx, []) := by decide
theorem test_decode_lda_without_operand : decode [0xA9] = .error (.truncated 0xA9) := by decide

/-- 95_test_vectors.md section 2.5: bytes beside the legal ones, and legal 6502 opcodes that are ILLEGAL here. -/
theorem test_decode_illegal :
    [0x01, 0xA8, 0xAB, 0xE9, 0xFE, 0xFF, 0xAD, 0xA2, 0x4C, 0xEA, 0xC8].all
      (fun op : Byte => decodeEntry op = none) = true := by decide

theorem test_table_word_lda : decodeTableWord 16 0xC0A9 = some (.lda 0xC0) := by decide
theorem test_table_word_high_bits_are_dropped : decodeTableWord 8 0xC0A9 = some (.lda 0x00) := by decide

/-! ### Flags and datapaths (95_test_vectors.md sections 2.1 and 2.2) -/

theorem test_flag_update :
    [(0x00, 0x00, 0x02), (0x80, 0x00, 0x02), (0x82, 0x05, 0x00), (0xFF, 0x00, 0x7F), (0xFF, 0x01, 0x7D),
      (0xFF, 0x80, 0xFD), (0x7D, 0x80, 0xFD), (0x24, 0x00, 0x26), (0x24, 0xC0, 0xA4)].all
      (fun v : Byte × Byte × Byte => flagUpdate v.1 v.2.1 = v.2.2) = true := by decide

theorem test_inc : [aluInc 0x00, aluInc 0x7F, aluInc 0xFE, aluInc 0xFF] = [0x01, 0x80, 0xFF, 0x00] := by decide

/-! ### Memory (95_test_vectors.md section 2.3) -/

/-- M3. -/
theorem test_read_word_at_fffe :
    Memory.readWord [(0xFFFE, 0xCD), (0xFFFF, 0xAB)] 0xFFFE = .ok 0xABCD := by decide

/-- M4 and M6. -/
theorem test_word_access_at_ffff_is_refused :
    Memory.readWord [(0, 0x22), (0xFFFF, 0x11)] 0xFFFF = .error (.outOfBounds 0xFFFF 2) ∧
      Memory.writeWord [(0, 0x22), (0xFFFF, 0x11)] 0xFFFF 0x1234 = .error (.outOfBounds 0xFFFF 2) := by decide

/-- M5. -/
theorem test_write_word_is_little_endian :
    Memory.writeWord [] 0x0010 0xBEEF = .ok [(0x10, 0xEF), (0x11, 0xBE)] := by decide

theorem test_writing_the_fill_unlists : Memory.writeByte [(3, 7), (5, 1)] 5 0x00 = [(3, 7)] := by decide

/-- M7. -/
theorem test_load_to_the_top :
    Memory.load [] [0x01, 0x02, 0x03] 0xFFFD = .ok [(0xFFFD, 1), (0xFFFE, 2), (0xFFFF, 3)] := by decide

/-- M8. -/
theorem test_load_past_the_top : Memory.load [] [0x01, 0x02, 0x03] 0xFFFE = .error (.outOfBounds 0xFFFE 3) := by decide

/-! ### Instructions (95_test_vectors.md sections 2.6 to 2.9), each one step on a small state -/

theorem test_lda_clears_z_and_n :
    regsOf (step (running 0x8000 [0xA9, 0x00] 0x44 0x33 0xFF none)) = some (0x00, 0x33, 0x7F, 0x8002) := by decide
theorem test_lda_at_fffe_overflows :
    faultOf (step (running 0xFFFE [0xA9, 0x10] 0x12 0x33 0x02 none)) = some (.addressOverflow 0xFFFE) := by decide
theorem test_tax_sets_n :
    regsOf (step (running 0x8000 [0xAA] 0xFF 0xFF 0x7D none)) = some (0xFF, 0xFF, 0xFD, 0x8001) := by decide
theorem test_tax_at_fffe :
    regsOf (step (running 0xFFFE [0xAA] 0x00 0x55 0x00 none)) = some (0x00, 0x00, 0x02, 0xFFFF) := by decide
theorem test_inx_wraps :
    regsOf (step (running 0x8000 [0xE8] 0x5A 0xFF 0xFD none)) = some (0x5A, 0x00, 0x7F, 0x8001) := by decide
theorem test_inx_at_ffff_overflows :
    faultOf (step (running 0xFFFF [0xE8] 0x5A 0x01 0x00 none)) = some (.addressOverflow 0xFFFF) := by decide
theorem test_halt_keeps_registers :
    regsOf (step (running 0x8000 [0x00] 0x12 0x34 0x82 none)) = some (0x12, 0x34, 0x82, 0x8001) := by decide
theorem test_halt_result :
    (nextOf (step (running 0xFFFE [0x00] 0x12 0x34 0x82 none))).map (fun s => (s.pc, s.result, s.activity)) =
      some (0xFFFF, .ok .halted, .stopped) := by decide

/-- B2 and Q3. -/
theorem test_bound_stops_before_fetch :
    (nextOf (step (running 0xFFFF [0xFF] 0x00 0x00 0x00 (some 0xFFFF)))).map (fun s => (s.pc, s.result)) =
      some (0xFFFF, .ok .endOfCode) := by decide

/-- Q1, B5 and Q2. -/
theorem test_priority_at_the_top :
    faultOf (step (running 0xFFFF [0xFF] 0x00 0x00 0x00 none)) = some (.addressOverflow 0xFFFF) ∧
      faultOf (step (running 0xFFFF [0x00] 0x00 0x00 0x00 (some 0x10000))) = some (.addressOverflow 0xFFFF) ∧
      faultOf (step (running 0xFFFE [0xFF] 0x00 0x00 0x00 none)) = some (.unimplementedOpcode 0xFF) := by decide

/-- The host's check of one table row: the word is placed at `PC` and runs as the first instruction after reset. -/
theorem test_placed_word_runs_after_reset :
    regsOf (step (State.reset.withFetchWord 16 0xC0A9)) = some (0xC0, 0x00, 0x80, 0x0002) := by decide

/-- R50: the source's line, in capital hexadecimal and in decimal. -/
theorem test_assemble_decimal_and_line_end :
    assemble ['L', 'D', 'A', ' ', '#', '1', '9', '2', '\n', 'H', 'A', 'L', 'T', '\n'] = some [0xA9, 0xC0, 0x00] := by
  decide

theorem test_assemble_rejects_a_wide_immediate : assemble ['L', 'D', 'A', ' ', '#', '2', '5', '6'] = none := by decide

/-- Both cases of a hexadecimal letter, and blanks of both kinds where log entry 10 passes over them. -/
theorem test_assemble_blanks_and_lower_case :
    assemble [' ', '\t', 'L', 'D', 'A', ' ', '\t', '#', '0', 'x', 'c', '0', ' ', ';', '\t', 'T', 'A', 'X'] =
      some [0xA9, 0xC0, 0xAA] ∧ assemble ['L', 'D', 'A', '\t', '#', '1'] = none := by decide

/-! ### Witnesses: the hypotheses of each statement are met together

Each docstring names the statements a witness serves. -/

/-- ByteWriteIsReadBackAndNothingElseChanges, at the two ends of memory. -/
theorem witness_byte_write : Memory.wf [(0, 0x22), (0xFFFF, 0x11)] = true ∧ (0x0000 : Word) ≠ 0xFFFF := by decide

/-- MemoriesThatReadAlikeAreEqual. -/
theorem witness_memories_alike :
    Memory.wf [(0xFFFF, 0x11)] = true ∧ SameBytes [(0xFFFF, 0x11)] [(0xFFFF, 0x11)] := ⟨by decide, fun _ => rfl⟩

/-- MemoryOperationsKeepCanonicalForm. -/
theorem witness_canonical_form :
    Memory.wf [] = true ∧ Memory.writeWord [] 0xFFFE 0xABCD = .ok [(0xFFFE, 0xCD), (0xFFFF, 0xAB)] ∧
      Memory.load [] [0x01] 0xFFFF = .ok [(0xFFFF, 0x01)] := by decide

/-- WordReadIsLittleEndianAndStopsAtTheTop, WordWriteIsLittleEndianAndStopsAtTheTop and
ResolverArmsFollowTheDataModel: the last address of the second clause (the first clause is 0xFFFF itself), and an
address outside the word there. -/
theorem witness_word_clauses :
    Memory.wf [] = true ∧ (0xFFFE : Word) ≠ 0xFFFF ∧ (0xFFFD : Word).toNat ≠ (0xFFFE : Word).toNat ∧
      (0xFFFD : Word).toNat ≠ (0xFFFE : Word).toNat + 1 := by decide

/-- LoaderCopiesAllOrNothing: its two clauses at their common edge, and addresses below and above the load. -/
theorem witness_loader_clauses :
    Memory.wf State.reset.mem = true ∧ (0xFFFD : Word).toNat + [0x01, 0x02, (0x03 : Byte)].length ≤ 65536 ∧
      65536 < (0xFFFE : Word).toNat + [0x01, 0x02, (0x03 : Byte)].length ∧
      (0xFFFC : Word).toNat < (0xFFFD : Word).toNat ∧
      (0x0002 : Word).toNat + [(0x01 : Byte)].length ≤ (0x0003 : Word).toNat := by decide

/-- OpcodeByteDecidesTheLength. -/
theorem witness_decode_accepts : decode [0xA9, 0xFF, 0xE8] = .ok (.lda 0xFF, [0xE8]) := by decide

/-- DecodedProgramsReencode. -/
theorem witness_decode_program_accepts :
    decodeProgram [0xA9, 0xC0, 0xAA, 0xE8, 0x00] = .ok [.lda 0xC0, .tax, .inx, .halt] := by decide

/-- DecodeAndEncodeAgreeOnPrograms, second clause. -/
theorem witness_encode_program_equal : encodeProgram [.lda 0xC0, .tax] = encodeProgram [.lda 0xC0, .tax] := rfl

/-- FlagUpdateNeverSetsBothAndForgetsOldFlags. -/
theorem witness_same_reserved : SameReserved 0x00 0x82 := by
  intro k hk h1 h7
  interval_cases k <;> first | rfl | exact absurd rfl h1 | exact absurd rfl h7

/-- LdaLoadsItsImmediate (up to 0xFFFD); TaxCopiesTheAccumulator, InxIncrementsWithWraparound and
HaltStopsJustPastItself (up to 0xFFFE). -/
theorem witness_completion :
    (running 0xFFFD [0xA9, 0x10] 0 0 0 none).pc.toNat + 2 ≤ 0xFFFF ∧
      (running 0xFFFE [0xAA] 0 0 0 none).pc.toNat + 1 ≤ 0xFFFF := by decide

/-- A run below its bound with the byte `op` at `pc`: the hypotheses of the four statements about an instruction in
memory. -/
def inMemory (s : State) (codeEnd : CodeEnd) (op : Byte) (pc : Nat) : Bool :=
  s.activity = .running codeEnd && boundReached codeEnd s.pc = false && s.mem.readByte s.pc = op && s.pc.toNat = pc

/-- LdaInMemoryLoadsTheNextByte: its last completing address and its two overflowing ones, one under a bound. -/
theorem witness_lda_in_memory :
    inMemory (running 0xFFFD [0xA9, 0x10] 0 0 0 none) none 0xA9 0xFFFD = true ∧
      inMemory (running 0xFFFE [0xA9, 0x10] 0 0 0 none) none 0xA9 0xFFFE = true ∧
      inMemory (running 0xFFFF [0xA9] 0 0 0 (some 0x10000)) (some 0x10000) 0xA9 0xFFFF = true := by decide

/-- TaxInMemoryCopiesTheAccumulator, InxInMemoryIncrements and HaltInMemoryStopsTheRun: the last completing address
and the overflowing one. -/
theorem witness_one_byte_in_memory :
    [0xAA, 0xE8, 0x00].all (fun op : Byte =>
      inMemory (running 0xFFFE [op] 0 0 0 none) none op 0xFFFE &&
        inMemory (running 0xFFFF [op] 0 0 0 none) none op 0xFFFF) = true := by decide

/-- InxInMemoryIncrements, last clause. -/
theorem witness_256_increments : (running 0xFEFF [0xE8] 0 0 0 none).pc.toNat + 256 ≤ 0xFFFF := by decide

/-- InstructionsChangeOnlyWhatTheyName, FlagsComeFromTheRegisterWritten and ReservedBitsSurviveEveryRun: each
instruction answers a next state. -/
theorem witness_exec_next :
    [Instr.halt, .lda 0x80, .tax, .inx].all
      (fun i => (nextOf (exec i (running 0x8000 [] 0x12 0x34 0xFF none))).isSome) = true := by decide

/-- EveryInstructionAdvancesByItsLength: both clauses, where they meet. -/
theorem witness_advance_clauses :
    (0xFFFD : Word).toNat + (Instr.lda 0x10).length ≤ 0xFFFF ∧
      0xFFFF < (0xFFFE : Word).toNat + (Instr.lda 0x10).length := by decide

/-- RepeatedIncrementsAddUp, with the most it allows. -/
theorem witness_repeated_increments :
    (running 0x0000 [0xE8] 0 0 0 none).pc.toNat + 0xFFFF ≤ 0xFFFF ∧ 0 < 0xFFFF := by decide

/-- StepRunsTheDecodedInstruction, with the operand at the last address it can have. -/
theorem witness_step_runs_decoded :
    inMemory (running 0xFFFE [0xA9, 0x10] 0 0 0 none) none 0xA9 0xFFFE = true ∧ (0xFFFE : Word).toNat < 0xFFFF ∧
      decode [(running 0xFFFE [0xA9, 0x10] 0 0 0 none).mem.readByte 0xFFFE,
        (running 0xFFFE [0xA9, 0x10] 0 0 0 none).mem.readByte (BitVec.ofNat 16 (0xFFFE + 1))] =
          .ok (.lda 0x10, []) := by decide

/-- PlacedWordIsExecutedNext. -/
theorem witness_placed_word :
    State.reset.mem.wf = true ∧ State.reset.pc.toNat < 0xFFFF ∧ decodeTableWord 8 0xE8 = some .inx := by decide

/-- BoundCheckStopsBeforeTheFetch: the bound reached exactly, a run without one, and one short of the bound. -/
theorem witness_bound_clauses :
    (running 3 [] 0 0 0 (some 3)).activity = .running (some 3) ∧
      (3 : Fin 0x10001).val ≤ (running 3 [] 0 0 0 (some 3)).pc.toNat ∧
      (running 3 [0xE8] 0 0 0 none).result ≠ .ok .endOfCode ∧
      (nextOf (step (running 3 [0xE8] 0 0 0 none))).isSome = true ∧
      (running 2 [0xE8] 0 0 0 (some 3)).pc.toNat < (3 : Fin 0x10001).val ∧
      (nextOf (step (running 2 [0xE8] 0 0 0 none))).isSome = true := by decide

/-- ChecksRunInPriorityOrder: a state for each arm of the chain. -/
theorem witness_priority_arms :
    boundReached (some 3) 3 = true ∧ inMemory (running 0xFFFF [0xFF] 0 0 0 (some 0x10000)) (some 0x10000) 0xFF 0xFFFF = true ∧
      inMemory (running 0xFFFE [0xFF] 0 0 0 none) none 0xFF 0xFFFE = true ∧ decodeEntry 0xFF = none ∧
      inMemory (running 0xFFFE [0xA9] 0 0 0 none) none 0xA9 0xFFFE = true ∧
      inMemory (running 0xFFFE [0xE8] 0 0 0 none) none 0xE8 0xFFFE = true ∧ decodeEntry 0xE8 ≠ none := by decide

/-- ChecksRunInPriorityOrder, last clause. -/
theorem witness_too_large : 65536 < (List.replicate 65537 (0x00 : Byte)).length := by
  simp only [List.length_replicate]
  decide

/-- StoppedCoreTakesNoStep and HostActsOnlyBetweenRuns. -/
theorem witness_stopped : State.reset.activity = .stopped := rfl

/-- StepsAreNeverRefusedAndFaultInTwoWays and ErrorsArePrecise: both faults of a step. -/
theorem witness_step_faults :
    faultOf (step (running 0xFFFF [0x00] 0 0 0 none)) = some (.addressOverflow 0xFFFF) ∧
      faultOf (step (running 0x8000 [0xFF] 0 0 0 none)) = some (.unimplementedOpcode 0xFF) := by decide

/-- IllegalByteEndsTheRunPrecisely. -/
theorem witness_illegal_byte :
    inMemory (running 0xFFFE [0x4C] 0 0 0 none) none 0x4C 0xFFFE = true ∧ (0xFFFE : Word).toNat < 0xFFFF ∧
      decodeEntry 0x4C = none := by decide

/-- NoStepTransfersControl: both ways a step leaves `PC`. -/
theorem witness_control_clauses :
    (nextOf (step (running 3 [] 0 0 0 (some 3)))).map (·.pc) = some 3 ∧
      (nextOf (step (running 3 [0xA9] 0 0 0 none))).map (·.pc) = some 5 := by decide

/-- StepDependsOnTheNamedStateAlone: two states of a run that differ in `RESULT` alone, one step on and one error. -/
theorem witness_step_depends :
    SameBytes (running 3 [0xE8] 0 0 0 none).mem { running 3 [0xE8] 0 0 0 none with result := .ok .halted }.mem ∧
      (nextOf (step (running 3 [0xE8] 0 0 0 none))).isSome = true ∧
      (faultOf (step (running 3 [0xFF] 0 0 0 none))).isSome = true := ⟨fun _ => rfl, by decide, by decide⟩

/-- StepKeepsTheStateInvariant: a state that meets the invariant and has a next state. -/
theorem witness_invariant :
    StateInv (running 3 [0xE8] 0 0 0 none) ∧ (nextOf (step (running 3 [0xE8] 0 0 0 none))).isSome = true :=
  ⟨⟨by decide, trivial⟩, by decide⟩

/-- HostSessionsKeepTheStateInvariant: a session with a load, a register write and a bounded run returns from reset. -/
theorem witness_session :
    ((hostSession [.load [0xE8, 0xE8] 0x0000, .setA 0x05, .run (some 1)] State.reset).map
      fun s => (s.result, s.a, s.x, s.pc)) = some (.ok .endOfCode, 0x05, 0x01, 0x0001) := by decide

/-- MoreFuelGivesTheSameEnd, RunsEndInOneOfFourWays and ReservedBitsSurviveEveryRun; 95_test_vectors.md B4 with
reserved bits set. -/
theorem witness_run_returns :
    (runLoop 3 (running 0 [0xA9, 0x05] 0 0 0x7D (some 1))).map (fun t => (t.a, t.p, t.pc, t.result)) =
      some (0x05, 0x7D, 0x0002, .ok .endOfCode) := by decide

/-- RunsEndInOneOfFourWays: one run for each of the other three ends. -/
theorem witness_run_ends :
    (runLoop 1 (running 0xFFFE [0x00] 0 0 0 none)).map (·.result) = some (.ok .halted) ∧
      (runLoop 1 (running 0xFFFE [0x4C] 0 0 0 none)).map (·.result) = some (.err (.unimplementedOpcode 0x4C)) ∧
      (runLoop 1 (running 0xFFFF [0x00] 0 0 0 none)).map (·.result) = some (.err (.addressOverflow 0xFFFF)) := by
  decide

/-- ErrorsArePrecise, second clause; `test_code_over_both_bounds_is_refused` meets its third. -/
theorem witness_failed_load : Memory.load [] [0x01, 0x02] 0xFFFF = .error (.outOfBounds 0xFFFF 2) := by decide

/-- LoadAndRunStartsAtTheOrigin: its three clauses at their edges, 32,768, 32,769, 65,536 and 65,537 bytes, and an
address on each side of the code. -/
theorem witness_load_and_run_clauses :
    State.reset.mem.wf = true ∧
      (List.replicate 32768 (0x00 : Byte)).length ≤ 32768 ∧ 32768 < (List.replicate 32769 (0x00 : Byte)).length ∧
      (List.replicate 65536 (0x00 : Byte)).length ≤ 65536 ∧ 65536 < (List.replicate 65537 (0x00 : Byte)).length ∧
      (0x7FFF : Word).toNat < 0x8000 ∧ 0x8000 + [(0x00 : Byte)].length ≤ (0x8001 : Word).toNat := by
  simp only [List.length_replicate]
  decide

/-- HostActsOnlyBetweenRuns, first clause. -/
theorem witness_host_waits : (running 3 [0xE8] 0 0 0 none).activity = .running none := rfl

/-- BytesBelowTheCounterNeverMatter: two memories that differ in a byte below `PC`, and a run that ends. -/
theorem witness_bytes_below :
    (∀ addr : Word, (running 3 [] 0 0 0 none).pc.toNat ≤ addr.toNat →
      Memory.readByte [(2, 0xE8)] addr = (running 3 [] 0 0 0 none).mem.readByte addr) ∧
      (runLoop 1 (running 3 [] 0 0 0 none)).isSome = true := by
  refine ⟨fun addr h => ?_, by decide⟩
  have h3 : (3 : Nat) ≤ addr.toNat := h
  simp only [Memory.readByte, Memory.lookup, running, Memory.writeBytes]
  rw [if_neg (by omega)]

/-- LoadedInstructionsRunAsWritten. -/
theorem witness_loaded_instructions :
    State.reset.mem.wf = true ∧ Instr.halt ∉ [Instr.lda 0xC0, .tax, .inx] ∧
      (encodeProgram [Instr.lda 0xC0, .tax, .inx]).length + 1 ≤ 0x7FFF := by decide

end Sys2Proof.Tests
end

/-! PROOFS. The registers and the flags (10_state.md): Z, N and the reserved bits of `P` through a flag update, an
instruction, a step and a run, and the statements about reset and `P`. -/

namespace Sys2Proof.SameReserved

theorem refl (p : Byte) : SameReserved p p := fun _ _ _ _ => rfl

theorem trans {p q r : Byte} (hpq : SameReserved p q) (hqr : SameReserved q r) : SameReserved p r :=
  fun k hk h1 h7 => (hqr k hk h1 h7).trans (hpq k hk h1 h7)

end Sys2Proof.SameReserved

namespace Sys2Proof.Machine

/-! ### What `flag_update` and a write-back do to `P` (rules R14 to R16) -/

theorem flagUpdate_zeroFlag (old r : Byte) : (flagUpdate old r).getLsbD 1 = decide (r.toNat = 0) := by
  rw [flagUpdate_getLsbD]
  simp [← BitVec.toNat_inj]

theorem flagUpdate_negativeFlag (old r : Byte) : (flagUpdate old r).getLsbD 7 = r.getLsbD 7 := by
  rw [flagUpdate_getLsbD]
  simp

theorem flagUpdate_sameReserved (old r : Byte) : SameReserved old (flagUpdate old r) := by
  intro k hk h1 h7
  rw [flagUpdate_getLsbD]
  simp [hk, h1, h7]

@[simp] theorem State.writeBack_z (s : State) (r : Reg) (v : Byte) (n : Word) :
    (s.writeBack r v n).z = decide (v.toNat = 0) := by
  rw [State.z, writeBack_p, flagUpdate_zeroFlag]

@[simp] theorem State.writeBack_n (s : State) (r : Reg) (v : Byte) (n : Word) :
    (s.writeBack r v n).n = v.getLsbD 7 := by
  rw [State.n, writeBack_p, flagUpdate_negativeFlag]

/-! ### The reserved bits through an instruction, a step and a run (rule R16) -/

/-- `HALT` leaves `P` alone; every other instruction writes it by `flag_update` alone. -/
theorem committed_sameReserved (i : Instr) (s : State) : SameReserved s.p (committed i s).p := by
  cases i with
  | halt => exact SameReserved.refl s.p
  | lda imm => exact flagUpdate_sameReserved s.p imm
  | tax => exact flagUpdate_sameReserved s.p s.a
  | inx => exact flagUpdate_sameReserved s.p (aluInc s.x)

theorem exec_next_sameReserved {i : Instr} {s t : State} (h : exec i s = .next t) : SameReserved s.p t.p := by
  obtain ⟨-, rfl⟩ := exec_next_inv h
  exact committed_sameReserved i s

/-- The three ways a step answers a next state: the core is at rest, the bound stops the run, or an instruction is
executed. -/
theorem step_next_cases {s t : State} (h : step s = .next t) :
    t = s ∨ t = s.endCall (.ok .endOfCode) ∨ ∃ i, exec i s = .next t := by
  rcases step_cases s with ⟨-, hs⟩ | ⟨_, -, ⟨-, hs⟩ | ⟨-, ⟨-, hs⟩ | ⟨-, -, hs⟩ | ⟨-, i, -, -, hs⟩⟩⟩ <;>
    rw [hs] at h
  · cases h; exact .inl rfl
  · cases h; exact .inr (.inl rfl)
  · cases h
  · cases h
  · exact .inr (.inr ⟨i, h⟩)

theorem step_next_sameReserved {s t : State} (h : step s = .next t) : SameReserved s.p t.p := by
  rcases step_next_cases h with rfl | rfl | ⟨i, hi⟩
  · exact SameReserved.refl _
  · exact SameReserved.refl s.p
  · exact exec_next_sameReserved hi

/-- The induction over a run, once: a property that every next step keeps, and the end of the call at a step's error,
passes from the start of a run to its end. -/
theorem runLoop_keeps {Q : State → Prop} (hnext : ∀ {s t}, Q s → step s = .next t → Q t)
    (hfault : ∀ {s e}, Q s → step s = .fault e → Q (s.endCall (.err e))) {k : Nat} {s t : State}
    (hs : Q s) (hrun : runLoop k s = some t) : Q t := by
  induction k generalizing s with
  | zero =>
    rw [runLoop] at hrun
    split at hrun <;> cases hrun
    exact hs
  | succ k ih =>
    by_cases hrest : s.activity = .stopped
    · rw [runLoop_stopped hrest] at hrun
      cases hrun
      exact hs
    · rw [runLoop_succ hrest] at hrun
      cases hstep : step s with rw [hstep] at hrun
      | next u => exact ih (hnext hs hstep) hrun
      | fault e => cases hrun; exact hfault hs hstep
      | refused r => cases hrun

theorem runLoop_sameReserved {k : Nat} {s t : State} (hrun : runLoop k s = some t) : SameReserved s.p t.p :=
  runLoop_keeps (Q := fun u => SameReserved s.p u.p)
    (fun hu hstep => hu.trans (step_next_sameReserved hstep)) (fun hu _ => hu) (SameReserved.refl s.p) hrun

/-! ### The statements -/

/-- Settles O48: `flag_update` masks the reserved bits through, so each instruction and each step keeps them, and a run
by induction over its steps. -/
theorem reservedBitsSurviveEveryRun : Obligations.ReservedBitsSurviveEveryRun :=
  ⟨flagUpdate_sameReserved, fun _ _ _ => exec_next_sameReserved, fun _ _ _ => runLoop_sameReserved,
    SameReserved.refl 0x00⟩

/-- Settles O1: the fields of the reset state, whose empty listing reads as the zero fill at every address. -/
theorem resetZeroesEverything : Obligations.ResetZeroesEverything :=
  ⟨rfl, rfl, rfl, rfl, fun _ => rfl, rfl⟩

/-- Settles O30: `LDA`, `TAX` and `INX` commit by a write-back, whose Z and N are those of the byte written; `HALT`
commits `PC` and the end of the call. -/
theorem flagsComeFromTheRegisterWritten : Obligations.FlagsComeFromTheRegisterWritten := by
  refine ⟨fun imm s t h => ?lda, fun s t h => ?x, fun s t h => ?halt, rfl, rfl⟩
  case lda =>
    obtain ⟨-, rfl⟩ := exec_next_inv h
    exact ⟨State.writeBack_z .., State.writeBack_n ..⟩
  case x =>
    rcases h with h | h <;> obtain ⟨-, rfl⟩ := exec_next_inv h <;>
      exact ⟨State.writeBack_z .., State.writeBack_n ..⟩
  case halt =>
    obtain ⟨-, rfl⟩ := exec_next_inv h
    exact ⟨rfl, rfl⟩

end Sys2Proof.Machine

/-! PROOFS. The memory interface (20_memory.md): what the byte and word accessors read, write and refuse, and the
statements about them. -/

namespace Sys2Proof.Machine.Memory

/-! ### Reading after a byte write (rule R32) -/

theorem readByte_writeByte_same {m : Memory} (h : m.wf = true) (a : Word) (v : Byte) :
    (m.writeByte a v).readByte a = v := by
  rw [readByte_writeByte h, if_pos rfl]

theorem readByte_writeByte_of_ne {m : Memory} (h : m.wf = true) {a b : Word} (hne : b ≠ a) (v : Byte) :
    (m.writeByte a v).readByte b = m.readByte b := by
  rw [readByte_writeByte h, if_neg hne]

/-! ### The two bytes of a word and the address after an address -/

theorem lowByte_toNat (v : Word) : (lowByte v).toNat = v.toNat % 256 := by
  simp [lowByte]

theorem highByte_toNat (v : Word) : (highByte v).toNat = v.toNat / 256 := by
  rw [highByte, BitVec.extractLsb'_toNat, Nat.shiftRight_eq_div_pow]
  omega

/-- The statements write the next address as a number; the accessors add 1 to the address. -/
theorem ofNat_toNat_succ (a : Word) : BitVec.ofNat 16 (a.toNat + 1) = a + 1 := by
  rw [BitVec.ofNat_add, BitVec.ofNat_toNat, BitVec.setWidth_eq]
  rfl

/-! ### Everything the word accessors can answer (rules R27, R28) -/

theorem readWord_top (m : Memory) : m.readWord 0xFFFF = .error (.outOfBounds 0xFFFF 2) := if_pos rfl

theorem readWord_ok (m : Memory) {a : Word} (h : a ≠ 0xFFFF) :
    m.readWord a = .ok (m.readByte (a + 1) ++ m.readByte a) := if_neg h

theorem writeWord_top (m : Memory) (v : Word) : m.writeWord 0xFFFF v = .error (.outOfBounds 0xFFFF 2) := if_pos rfl

theorem writeWord_ok (m : Memory) {a : Word} (h : a ≠ 0xFFFF) (v : Word) :
    m.writeWord a v = .ok ((m.writeByte a (lowByte v)).writeByte (a + 1) (highByte v)) := if_neg h

/-- A word is read at every address but the last, odd and even alike (rule R30). -/
theorem readWord_succeeds_iff (m : Memory) (a : Word) : (∃ w, m.readWord a = .ok w) ↔ a ≠ 0xFFFF := by
  constructor
  · rintro ⟨w, hw⟩ rfl
    rw [readWord_top] at hw
    cases hw
  · exact fun h => ⟨_, readWord_ok m h⟩

/-- A word write that answers a memory is below the last address, and is the two byte writes. -/
theorem writeWord_ok_inv {m m' : Memory} {a v : Word} (h : m.writeWord a v = .ok m') :
    a ≠ 0xFFFF ∧ m' = (m.writeByte a (lowByte v)).writeByte (a + 1) (highByte v) := by
  by_cases htop : a = 0xFFFF
  · rw [htop, writeWord_top] at h
    cases h
  · rw [writeWord_ok m htop] at h
    cases h
    exact ⟨htop, rfl⟩

/-- A word is written at every address but the last, odd and even alike (rule R30). -/
theorem writeWord_succeeds_iff (m : Memory) (a v : Word) : (∃ m', m.writeWord a v = .ok m') ↔ a ≠ 0xFFFF :=
  ⟨fun ⟨_, h⟩ => (writeWord_ok_inv h).1, fun h => ⟨_, writeWord_ok m h v⟩⟩

/-! ### Reading after a word write (rules R28, R29) -/

section WordWrite

variable {m m' : Memory} {a v : Word}

theorem readByte_writeWord_low (hm : m.wf = true) (hw : m.writeWord a v = .ok m') : m'.readByte a = lowByte v := by
  obtain ⟨-, rfl⟩ := writeWord_ok_inv hw
  rw [readByte_writeByte_of_ne (writeByte_wf hm _ _) (succ_ne_self a).symm, readByte_writeByte_same hm]

theorem readByte_writeWord_high (hm : m.wf = true) (hw : m.writeWord a v = .ok m') :
    m'.readByte (a + 1) = highByte v := by
  obtain ⟨-, rfl⟩ := writeWord_ok_inv hw
  rw [readByte_writeByte_same (writeByte_wf hm _ _)]

theorem readByte_writeWord_of_ne (hm : m.wf = true) (hw : m.writeWord a v = .ok m') {b : Word} (hlow : b ≠ a)
    (hhigh : b ≠ a + 1) : m'.readByte b = m.readByte b := by
  obtain ⟨-, rfl⟩ := writeWord_ok_inv hw
  rw [readByte_writeByte_of_ne (writeByte_wf hm _ _) hhigh, readByte_writeByte_of_ne hm hlow]

theorem readWord_writeWord (hm : m.wf = true) (hw : m.writeWord a v = .ok m') : m'.readWord a = .ok v := by
  rw [readWord_ok m' (writeWord_ok_inv hw).1, readByte_writeWord_low hm hw, readByte_writeWord_high hm hw, highByte_append_lowByte]

end WordWrite

/-! ### The statements -/

/-- Settles O2: an insertion in a canonical listing is read at its own address and nowhere else. -/
theorem byteWriteIsReadBackAndNothingElseChanges : Obligations.ByteWriteIsReadBackAndNothingElseChanges :=
  fun _ addr _ v hm => ⟨readByte_writeByte_same hm addr v, fun hne => readByte_writeByte_of_ne hm hne v⟩

/-- Settles O6: below 0xFFFF the two byte writes are at different addresses, so neither hides the other, and the word
read back is its two bytes put together. -/
theorem wordWriteIsLittleEndianAndStopsAtTheTop : Obligations.WordWriteIsLittleEndianAndStopsAtTheTop := by
  refine fun m addr v hm => ⟨?top, fun htop => ?_⟩
  case top => rintro rfl; exact writeWord_top m v
  obtain ⟨m', hw⟩ := (writeWord_succeeds_iff m addr v).2 htop
  refine ⟨m', hw, ?low, ?high, readWord_writeWord hm hw, fun other hlow hhigh => ?frame⟩
  case low => rw [readByte_writeWord_low hm hw, lowByte_toNat]
  case high => rw [ofNat_toNat_succ, readByte_writeWord_high hm hw, highByte_toNat]
  case frame =>
    rw [← succ_toNat htop] at hhigh
    exact readByte_writeWord_of_ne hm hw (BitVec.toNat_ne_iff_ne.1 hlow) (BitVec.toNat_ne_iff_ne.1 hhigh)

/-- Settles O5: the word is the byte after the address put in front of the byte at it, with no canonical form
needed. -/
theorem wordReadIsLittleEndianAndStopsAtTheTop : Obligations.WordReadIsLittleEndianAndStopsAtTheTop := by
  refine fun m addr => ⟨?top, fun htop => ⟨_, readWord_ok m htop, ?_⟩⟩
  case top => rintro rfl; exact readWord_top m
  rw [ofNat_toNat_succ]
  exact toNat_append (m.readByte (addr + 1)) (m.readByte addr)

end Sys2Proof.Machine.Memory

namespace Sys2Proof.Machine

/-- An instruction answers a next state exactly where the position past its last byte is an address (rule R56). -/
theorem exec_succeeds_iff (i : Instr) (s : State) : (∃ t, exec i s = .next t) ↔ s.pc.toNat + i.length ≤ 0xFFFF := by
  constructor
  · rintro ⟨t, ht⟩
    exact (exec_next_inv ht).1
  · intro hfits
    rcases exec_cases i s with ⟨hover, -⟩ | ⟨-, hnext⟩
    · omega
    · exact ⟨_, hnext⟩

/-- Settles O7: the one check of a word access is against 0xFFFF, and the one check of an instruction is the advance of
`PC`. -/
theorem noAccessNeedsAlignment : Obligations.NoAccessNeedsAlignment :=
  ⟨Memory.readWord_succeeds_iff, Memory.writeWord_succeeds_iff, exec_succeeds_iff⟩

end Sys2Proof.Machine

/-! PROOFS. The encoding (30_encoding.md): the decoder's table at all 256 bytes, the bytes of a program, and the
statements about them. -/

namespace Sys2Proof

/-- The bytes without an entry are those that are no mnemonic's opcode (rules R46, R48). -/
theorem decodeEntry_eq_none_iff (op : Byte) : decodeEntry op = none ↔ ∀ m, op ≠ opcodeOf m := by
  constructor
  · rintro hnone m rfl
    rw [decodeEntry_opcodeOf] at hnone
    cases hnone
  · exact fun h => Option.eq_none_iff_forall_ne_some.2 fun ent he => h ent.mnemonic (decodeEntry_some he)

/-- The opcodes of the four mnemonics, written out (rule R46). -/
theorem forall_ne_opcodeOf_iff (op : Byte) :
    (∀ m, op ≠ opcodeOf m) ↔ op ≠ 0x00 ∧ op ≠ 0xA9 ∧ op ≠ 0xAA ∧ op ≠ 0xE8 := by
  constructor
  · exact fun h => ⟨h .halt, h .lda, h .tax, h .inx⟩
  · rintro ⟨hhalt, hlda, htax, hinx⟩ (_ | _ | _ | _)
    exacts [hhalt, hlda, htax, hinx]

/-- The numbers of the ILLEGAL bytes are those below 256 that are none of the four opcodes. -/
theorem illegalNumbers_eq_sdiff :
    ((List.range 256).filter fun n => decide (decodeEntry (BitVec.ofNat 8 n) = none)).toFinset =
      Finset.range 256 \ {0x00, 0xA9, 0xAA, 0xE8} := by
  ext n
  simp only [List.mem_toFinset, List.mem_filter, List.mem_range, decide_eq_true_eq, decodeEntry_eq_none_iff,
    forall_ne_opcodeOf_iff, Finset.mem_sdiff, Finset.mem_range, Finset.mem_insert, Finset.mem_singleton]
  bv_omega

/-! ### The statements -/

/-- Settles O9: the four opcodes have their mnemonics' entries, every other byte is ILLEGAL, and the count is that of
256 numbers without four of them. -/
theorem opcodeMapIsTheDecoder : Obligations.OpcodeMapIsTheDecoder := by
  refine ⟨fun op => ?table, ?count⟩
  case table =>
    split_ifs with hhalt hlda htax hinx
    · rw [hhalt]; exact decodeEntry_opcodeOf .halt
    · rw [hlda]; exact decodeEntry_opcodeOf .lda
    · rw [htax]; exact decodeEntry_opcodeOf .tax
    · rw [hinx]; exact decodeEntry_opcodeOf .inx
    · rw [decodeEntry_eq_none_iff, forall_ne_opcodeOf_iff]
      exact ⟨hhalt, hlda, htax, hinx⟩
  case count =>
    have hopcodes : ({0x00, 0xA9, 0xAA, 0xE8} : Finset Nat) ⊆ Finset.range 256 := by
      simp [Finset.insert_subset_iff]
    rw [← List.toFinset_card_of_nodup (List.nodup_range.filter _), illegalNumbers_eq_sdiff,
      Finset.card_sdiff_of_subset hopcodes, Finset.card_range]
    rfl

/-- Settles O15: `encodeProgram` and `encode` by their equations, and the spec's line read as its four instructions,
whose bytes are then put together. -/
theorem programBytesAreItsInstructionsInOrder : Obligations.ProgramBytesAreItsInstructionsInOrder := by
  refine ⟨rfl, fun _ _ => rfl, fun _ => rfl, rfl, rfl, rfl, ?line⟩
  have hread : Machine.readProgram ['L', 'D', 'A', ' ', '#', '0', 'x', 'C', '0', ';', ' ', 'T', 'A', 'X', ';', ' ',
      'I', 'N', 'X', ';', ' ', 'H', 'A', 'L', 'T'] = some [.lda 0xC0, .tax, .inx, .halt] := by decide
  rw [Machine.assemble, hread]
  rfl

end Sys2Proof

/-! PROOFS. Fetch, decode and execute (40_fetch_decode_execute.md): what the resolver, the flag update and the datapaths
answer, what moves `PC`, what a step depends on, and the statements about them. -/

namespace Sys2Proof

/-- The first byte of an accepted sequence has an entry of the instruction's length, which goes with its mode (rules
R46, R58). -/
theorem decode_cons_entry {op : Byte} {tail rest : List Byte} {i : Instr}
    (h : decode (op :: tail) = .ok (i, rest)) :
    ∃ ent, decodeEntry op = some ent ∧ ent.length = i.length ∧
      (ent.length = 1 ∧ ent.mode = none ∨ ent.length = 2 ∧ ent.mode = some .immediate) := by
  have hbytes := decode_ok h
  cases i with
  | halt => cases hbytes; exact ⟨_, decodeEntry_opcodeOf .halt, rfl, .inl ⟨rfl, rfl⟩⟩
  | lda imm => cases hbytes; exact ⟨_, decodeEntry_opcodeOf .lda, rfl, .inr ⟨rfl, rfl⟩⟩
  | tax => cases hbytes; exact ⟨_, decodeEntry_opcodeOf .tax, rfl, .inl ⟨rfl, rfl⟩⟩
  | inx => cases hbytes; exact ⟨_, decodeEntry_opcodeOf .inx, rfl, .inl ⟨rfl, rfl⟩⟩

end Sys2Proof

namespace Sys2Proof.Machine

/-! ### The flag bits as comparisons, and the increment as a number (rules R59, R61) -/

theorem getLsbD_seven_eq_decide (r : Byte) : r.getLsbD 7 = decide (128 ≤ r.toNat) :=
  (BitVec.msb_eq_getLsbD_last r).symm.trans (BitVec.msb_eq_decide r)

theorem negativeBit_eq_ite (r : Byte) : negativeBit r = if 128 ≤ r.toNat then 0x80 else 0x00 := by
  simp only [negativeBit, getLsbD_seven_eq_decide, decide_eq_true_eq]

theorem zeroBit_eq_ite (r : Byte) : zeroBit r = if r.toNat = 0 then 0x02 else 0x00 :=
  if_congr BitVec.toNat_inj.symm rfl rfl

theorem aluInc_toNat (v : Byte) : (aluInc v).toNat = (v.toNat + 1) % 256 := by
  rw [aluInc, BitVec.toNat_ofNat, Nat.mod_mod]

/-! ### What a committed state holds (rules R56, R64) -/

theorem committed_pc_toNat {i : Instr} {s : State} (h : s.pc.toNat + i.length ≤ 0xFFFF) :
    (committed i s).pc.toNat = s.pc.toNat + i.length := by
  rw [committed_pc, advanced_toNat h]

theorem committed_result (i : Instr) (s : State) :
    (committed i s).result = if i = .halt then .ok .halted else s.result := by
  cases i <;> rfl

theorem committed_activity (i : Instr) (s : State) :
    (committed i s).activity = if i = .halt then .stopped else s.activity := by
  cases i <;> rfl

/-- A step of a run that answers a next state stopped at the bound, or committed the instruction that the bytes at `PC`
decode to. -/
theorem step_next_of_running {s t : State} {codeEnd : CodeEnd} (hrun : s.activity = .running codeEnd)
    (h : step s = .next t) :
    (boundReached codeEnd s.pc = true ∧ t = s.endCall (.ok .endOfCode)) ∨
      ∃ i rest, decode [s.mem.readByte s.pc, s.mem.readByte (BitVec.ofNat 16 (s.pc.toNat + 1))] = .ok (i, rest) ∧
        s.pc.toNat + i.length ≤ 0xFFFF ∧ t = committed i s := by
  rcases step_cases s with ⟨hstop, -⟩ | ⟨_, hrun', ⟨hb, hs⟩ | ⟨-, ⟨-, hs⟩ | ⟨-, -, hs⟩ | ⟨-, i, rest, hd, hs⟩⟩⟩
  · rw [hrun] at hstop; cases hstop
  · rw [hrun] at hrun'; cases hrun'
    rw [hs] at h; cases h
    exact .inl ⟨hb, rfl⟩
  · rw [hs] at h; cases h
  · rw [hs] at h; cases h
  · exact .inr ⟨i, rest, hd, exec_next_inv (hs ▸ h)⟩

/-! ### What fetch and execution depend on (rule R67) -/

theorem operandBytes_of_sameBytes {m m' : Memory} (hbytes : SameBytes m m') (mode : Option AddrMode) (p : Word) :
    operandBytes m' mode p = operandBytes m mode p := by
  match mode with
  | none => rfl
  | some .immediate => simp only [operandBytes, resolve, hbytes p]
  | some .absolute => simp only [operandBytes, resolve, Memory.readWord, hbytes p, hbytes (p + 1)]

section Alike

variable {s s' : State} (hpc : s'.pc = s.pc)

include hpc

/-- The fetch unit and the decoder read `PC` and memory, and nothing else. -/
theorem fetch_of_sameBytes (hbytes : SameBytes s.mem s'.mem) : fetch s' = fetch s := by
  simp only [fetch, decodeWithOperand, hpc, hbytes s.pc, operandBytes_of_sameBytes hbytes]

/-- `PC` alone decides whether an instruction overflows or commits. -/
theorem exec_alike (i : Instr) :
    (∃ f, exec i s = .fault f ∧ exec i s' = .fault f) ∨
      (exec i s = .next (committed i s) ∧ exec i s' = .next (committed i s')) := by
  have hcases := exec_cases i s'
  rw [hpc] at hcases
  rcases exec_cases i s with ⟨hover, hs⟩ | ⟨hfits, hs⟩ <;> rcases hcases with ⟨hover', hs'⟩ | ⟨hfits', hs'⟩
  · exact .inl ⟨_, hs, hs'⟩
  · omega
  · omega
  · exact .inr ⟨hs, hs'⟩

/-- Below their bounds, two runs at one `PC` over the same bytes raise the same error or commit the same instruction. -/
theorem step_alike (hbytes : SameBytes s.mem s'.mem) {codeEnd codeEnd' : CodeEnd}
    (hrun : s.activity = .running codeEnd) (hbelow : boundReached codeEnd s.pc = false)
    (hrun' : s'.activity = .running codeEnd') (hbelow' : boundReached codeEnd' s'.pc = false) :
    (∃ f, step s = .fault f ∧ step s' = .fault f) ∨
      ∃ i, step s = .next (committed i s) ∧ step s' = .next (committed i s') := by
  rw [step_running hrun hbelow, step_running hrun' hbelow', fetch_of_sameBytes hpc hbytes]
  cases fetch s with
  | error e => exact .inl ⟨e, rfl, rfl⟩
  | ok i => exact (exec_alike hpc i).imp_right fun h => ⟨i, h⟩

end Alike

/-- The state a step depends on besides the run (rule R67): two states agree on `A`, `X`, `P`, `PC` and every byte. -/
structure SameInputs (s s' : State) : Prop where
  a : s'.a = s.a
  x : s'.x = s.x
  p : s'.p = s.p
  pc : s'.pc = s.pc
  bytes : SameBytes s.mem s'.mem

/-- An instruction commits states that agree from states that agree. -/
theorem committed_sameInputs {s s' : State} (h : SameInputs s s') (i : Instr) :
    SameInputs (committed i s) (committed i s') where
  a := by cases i <;> simp [committed, h.a]
  x := by cases i <;> simp [committed, h.a, h.x]
  p := by cases i <;> simp [committed, h.a, h.x, h.p]
  pc := by rw [committed_pc, committed_pc, h.pc]
  bytes := by simpa using h.bytes

/-! ### The statements -/

/-- Settles O41: at the bound both runs stop as they are; below it both raise one error or commit one instruction, and
`HALT`, the one instruction that stops a run, writes `RESULT`. -/
theorem stepDependsOnTheNamedStateAlone : Obligations.StepDependsOnTheNamedStateAlone := by
  intro s s' codeEnd hrun hrun' ha hx hp hpc hbytes
  have hsame : SameInputs s s' := ⟨ha, hx, hp, hpc, hbytes⟩
  cases hb : boundReached codeEnd s.pc with
  | true =>
    rw [step_bound hrun hb, step_bound hrun' (hpc ▸ hb)]
    refine ⟨nofun, fun t ht => ?_⟩
    cases ht
    exact ⟨_, rfl, ha, hx, hp, hpc, rfl, hbytes, fun _ => rfl⟩
  | false =>
    rcases step_alike hpc hbytes hrun hb hrun' (hpc ▸ hb) with ⟨e, hs, hs'⟩ | ⟨i, hs, hs'⟩ <;> rw [hs, hs']
    · exact ⟨fun _ hf => hf, nofun⟩
    · refine ⟨nofun, fun t ht => ?_⟩
      cases ht
      obtain ⟨ha, hx, hp, hpc, hbytes⟩ := committed_sameInputs hsame i
      refine ⟨_, rfl, ha, hx, hp, hpc, ?activity, hbytes, ?result⟩
      case activity => rw [committed_activity, committed_activity, hrun, hrun']
      case result =>
        by_cases hi : i = .halt
        · simp [committed_result, hi]
        · simp [committed_activity, hi, hrun]

/-- Settles O17: the two flags are bit 7 of the byte and its comparison with 0, put over the masked old bits. -/
theorem flagUpdateOwnsZAndNOnly : Obligations.FlagUpdateOwnsZAndNOnly := by
  refine fun old r => ⟨flagUpdate_zeroFlag old r, ?negative, flagUpdate_sameReserved old r, ?formula⟩
  case negative => rw [flagUpdate_negativeFlag, getLsbD_seven_eq_decide]
  case formula => rw [flagUpdate, reservedMask, negativeBit_eq_ite, zeroBit_eq_ite]

/-- Settles O19: `PASS` answers its input, and `INC` is taken modulo 256 before it is made a byte. -/
theorem datapathsPassAndWrap : Obligations.DatapathsPassAndWrap :=
  fun v => ⟨rfl, aluInc_toNat v, rfl⟩

/-- Settles O20: the arm `Absolute` is `read_word`, with its value and its error at 0xFFFF (O5). -/
theorem resolverArmsFollowTheDataModel : Obligations.ResolverArmsFollowTheDataModel := by
  intro m pos
  obtain ⟨htop, hword⟩ := Memory.wordReadIsLittleEndianAndStopsAtTheTop m pos
  exact ⟨rfl, htop, hword, rfl⟩

/-- Settles O31: an instruction overflows or commits by the one check of its length, and commits the exact sum. -/
theorem everyInstructionAdvancesByItsLength : Obligations.EveryInstructionAdvancesByItsLength := by
  intro i s
  rcases exec_cases i s with ⟨hover, hs⟩ | ⟨hfits, hs⟩
  · exact ⟨fun hle => absurd hle (Nat.not_le.2 hover), fun _ => hs⟩
  · exact ⟨fun _ => ⟨_, hs, committed_pc_toNat hfits⟩, fun hlt => absurd hfits (Nat.not_le.2 hlt)⟩

/-- Settles O35: a reached bound ends the call with nothing else written; an instruction leaves `RESULT` or writes
`Ok(Halted)`; and below the bound the step reads no `CODE_END`. -/
theorem boundCheckStopsBeforeTheFetch : Obligations.BoundCheckStopsBeforeTheFetch := by
  refine ⟨fun s e hrun he => step_bound hrun (boundReached_some.2 he), fun s t hrun hres h => ?unbounded,
    fun s e hrun hlt => ?below⟩
  case unbounded =>
    rcases step_next_of_running hrun h with ⟨hb, -⟩ | ⟨i, _, -, -, rfl⟩
    · rw [boundReached_none] at hb; cases hb
    · rw [committed_result]
      split
      · nofun
      · exact hres
  case below =>
    have hb : boundReached (some e) s.pc = false := by
      rw [← Bool.not_eq_true, boundReached_some, Nat.not_le]
      exact hlt
    rcases step_alike (s := s) (s' := { s with activity := .running none }) rfl (fun _ => rfl) hrun hb rfl rfl with
      ⟨e, hs, hs'⟩ | ⟨i, hs, hs'⟩ <;> rw [hs, hs']
    · exact ⟨fun _ => .rfl, nofun⟩
    · refine ⟨fun _ => ⟨nofun, nofun⟩, fun t ht => ?_⟩
      cases ht
      refine ⟨_, rfl, ?_⟩
      cases i <;> exact ⟨rfl, rfl, rfl, rfl, rfl, rfl⟩

/-- Settles O40: a step that is not stopped at the bound commits the instruction of the bytes at `PC`, whose length is
its entry's. -/
theorem noStepTransfersControl : Obligations.NoStepTransfersControl := by
  intro s t codeEnd hrun h
  rcases step_next_of_running hrun h with ⟨-, rfl⟩ | ⟨i, _, hd, hfits, rfl⟩
  · exact .inl ⟨rfl, rfl, rfl⟩
  · obtain ⟨ent, hent, hlen, hmode⟩ := decode_cons_entry hd
    exact .inr ⟨ent, hent, hlen ▸ committed_pc_toNat hfits, hmode⟩

end Sys2Proof.Machine

/-! PROOFS. The load and transfer instructions (41_load_transfer.md): the step at an instruction's bytes in memory, and
the statements about `LDA` and `TAX`. -/

namespace Sys2Proof.Machine

theorem instr_length_pos (i : Instr) : 0 < i.length := by
  cases i <;> exact Nat.succ_pos _

/-- An instruction whose bytes stand at `PC` in a run below its bound commits or overflows.  At 0xFFFF the fetch
overflows before the decoder is asked, with the error that the instruction's own length would raise (rules R54, R56). -/
theorem step_of_decode {s : State} {codeEnd : CodeEnd} {i : Instr} {rest : List Byte}
    (hrun : s.activity = .running codeEnd) (hbelow : boundReached codeEnd s.pc = false)
    (hdec : decode [s.mem.readByte s.pc, s.mem.readByte (BitVec.ofNat 16 (s.pc.toNat + 1))] = .ok (i, rest)) :
    (s.pc.toNat + i.length ≤ 0xFFFF → step s = .next (committed i s)) ∧
      (0xFFFF < s.pc.toNat + i.length → step s = .fault (.addressOverflow s.pc)) := by
  rw [step_running hrun hbelow]
  rcases fetch_cases s with ⟨htop, hf⟩ | ⟨-, hnone, -⟩ | ⟨-, j, _, hf, hdec'⟩
  · have hpos := instr_length_pos i
    exact ⟨fun hfits => by omega, fun _ => by rw [hf]⟩
  · obtain ⟨ent, hent, -⟩ := decode_cons_entry hdec
    rw [hnone] at hent
    cases hent
  · rw [hdec] at hdec'
    cases hdec'
    rw [hf]
    rcases exec_cases i s with ⟨hover, hs⟩ | ⟨hfits, hs⟩
    · exact ⟨fun hle => absurd hle (Nat.not_le.2 hover), fun _ => hs⟩
    · exact ⟨fun _ => hs, fun hlt => absurd hfits (Nat.not_le.2 hlt)⟩

/-! ### The statements -/

/-- Settles O21: the write-back of the immediate to `A`. -/
theorem ldaLoadsItsImmediate : Obligations.LdaLoadsItsImmediate :=
  fun imm _ hfits => execLda_next imm hfits

/-- Settles O22: the write-back of `A` to `X`. -/
theorem taxCopiesTheAccumulator : Obligations.TaxCopiesTheAccumulator :=
  fun _ hfits => execTax_next hfits

/-- Settles O25: 0xA9 and the byte after it decode to `LDA` of that byte, which is two bytes long and commits a
write-back to `A`. -/
theorem ldaInMemoryLoadsTheNextByte : Obligations.LdaInMemoryLoadsTheNextByte := by
  refine ⟨decodeEntry_opcodeOf .lda, fun s codeEnd hrun hbelow hop => ?_⟩
  have hdec : decode [s.mem.readByte s.pc, s.mem.readByte (BitVec.ofNat 16 (s.pc.toNat + 1))] =
      .ok (.lda (s.mem.readByte (BitVec.ofNat 16 (s.pc.toNat + 1))), []) := by rw [hop]; rfl
  obtain ⟨hnext, hfault⟩ := step_of_decode hrun hbelow hdec
  refine ⟨fun hle => ?_, fun hge => hfault (Nat.add_le_add_right hge 2)⟩
  have hfits := Nat.add_le_add_right hle 2
  exact ⟨_, hnext hfits, rfl, rfl, State.writeBack_z .., State.writeBack_n .., committed_sameReserved _ s,
    committed_pc_toNat hfits, rfl, rfl, rfl⟩

/-- Settles O26: 0xAA decodes to `TAX` whatever byte comes after it, and `TAX` commits a write-back of `A` to `X`. -/
theorem taxInMemoryCopiesTheAccumulator : Obligations.TaxInMemoryCopiesTheAccumulator := by
  refine ⟨decodeEntry_opcodeOf .tax, fun s codeEnd hrun hbelow hop => ?_⟩
  have hdec : decode [s.mem.readByte s.pc, s.mem.readByte (BitVec.ofNat 16 (s.pc.toNat + 1))] =
      .ok (.tax, [s.mem.readByte (BitVec.ofNat 16 (s.pc.toNat + 1))]) := by rw [hop]; rfl
  obtain ⟨hnext, hfault⟩ := step_of_decode hrun hbelow hdec
  refine ⟨fun hle => ?_, fun htop => hfault (Nat.add_le_add_right htop.ge 1)⟩
  have hfits := Nat.add_le_add_right hle 1
  exact ⟨_, hnext hfits, rfl, rfl, State.writeBack_z .., State.writeBack_n .., committed_sameReserved _ s,
    committed_pc_toNat hfits, rfl, rfl, rfl⟩

end Sys2Proof.Machine

/-! PROOFS. The increment instruction (42_increment.md): an instruction executed again and again, what a row of `INX`
leaves in the registers, and the statements about `INX`. -/

namespace Sys2Proof.Machine

/-- The reserved bits are all that `flag_update` takes from the old `P` (rule R59). -/
theorem flagUpdate_of_sameReserved {old old' : Byte} (h : SameReserved old old') (r : Byte) :
    flagUpdate old' r = flagUpdate old r := by
  refine BitVec.eq_of_getLsbD_eq fun k hk => ?_
  rw [flagUpdate_getLsbD, flagUpdate_getLsbD]
  by_cases h1 : k = 1
  · simp [h1]
  by_cases h7 : k = 7
  · simp [h7]
  rw [h k hk h1 h7]

/-! ### Executions of one instruction in a row

Wherever they fit, their end is the iterated committed state. -/

theorem iterate_committed_pc_toNat {i : Instr} {n : Nat} {s : State} (hfits : s.pc.toNat + n * i.length ≤ 0xFFFF) :
    ((committed i)^[n] s).pc.toNat = s.pc.toNat + n * i.length := by
  induction n with
  | zero => simp
  | succ n ih =>
    rw [Nat.succ_mul, ← Nat.add_assoc] at hfits ⊢
    have hpc := ih (by omega)
    rw [Function.iterate_succ_apply', committed_pc_toNat (by omega), hpc]

theorem execTimes_iterate_committed {i : Instr} {n : Nat} {s : State}
    (hfits : s.pc.toNat + n * i.length ≤ 0xFFFF) : ExecTimes i n s ((committed i)^[n] s) := by
  induction n generalizing s with
  | zero => rfl
  | succ n ih =>
    rw [Nat.succ_mul] at hfits
    rcases exec_cases i s with ⟨hover, -⟩ | ⟨hone, hs⟩
    · omega
    · exact ⟨_, hs, ih (by rw [committed_pc_toNat hone]; omega)⟩

theorem iterate_committed_mem (i : Instr) (n : Nat) (s : State) : ((committed i)^[n] s).mem = s.mem :=
  Function.Iterate.rec (fun u : State => u.mem = s.mem) rfl (fun u hu => (committed_mem i u).trans hu) n

theorem iterate_committed_sameReserved (i : Instr) (n : Nat) (s : State) :
    SameReserved s.p ((committed i)^[n] s).p :=
  Function.Iterate.rec (fun u : State => SameReserved s.p u.p) (SameReserved.refl s.p)
    (fun u hu => hu.trans (committed_sameReserved i u)) n

/-! ### `INX`, once and in a row (rule R71) -/

@[simp] theorem committed_inx_a (s : State) : (committed .inx s).a = s.a := rfl

@[simp] theorem committed_inx_x (s : State) : (committed .inx s).x = aluInc s.x := rfl

@[simp] theorem committed_inx_p (s : State) : (committed .inx s).p = flagUpdate s.p (aluInc s.x) := rfl

theorem iterate_inx_a (n : Nat) (s : State) : ((committed .inx)^[n] s).a = s.a :=
  Function.Iterate.rec (fun u : State => u.a = s.a) rfl (fun u hu => (committed_inx_a u).trans hu) n

theorem iterate_inx_x_toNat (n : Nat) (s : State) : ((committed .inx)^[n] s).x.toNat = (s.x.toNat + n) % 256 := by
  induction n with
  | zero => exact (Nat.mod_eq_of_lt s.x.isLt).symm
  | succ n ih =>
    rw [Function.iterate_succ_apply', committed_inx_x, aluInc_toNat, ih, Nat.mod_add_mod, Nat.add_assoc]

/-- The last `INX` of a row writes Z and N; the ones before it keep the reserved bits, the only ones it reads. -/
theorem iterate_inx_p {n : Nat} (hpos : 0 < n) (s : State) :
    ((committed .inx)^[n] s).p = flagUpdate s.p ((committed .inx)^[n] s).x := by
  obtain ⟨k, rfl⟩ := Nat.exists_eq_succ_of_ne_zero hpos.ne'
  rw [Function.iterate_succ_apply', committed_inx_p, committed_inx_x]
  exact flagUpdate_of_sameReserved (iterate_committed_sameReserved .inx k s) _

/-! ### The statements -/

/-- Settles O32: each `INX` of the row adds 1 modulo 256, and the old flags never reach the last `P`. -/
theorem repeatedIncrementsAddUp : Obligations.RepeatedIncrementsAddUp := by
  intro n s hfits
  have hlen : n * Instr.inx.length = n := Nat.mul_one n
  rw [← hlen] at hfits
  have hpc := iterate_committed_pc_toNat hfits
  rw [hlen] at hpc
  exact ⟨_, execTimes_iterate_committed hfits, iterate_inx_x_toNat n s, hpc, iterate_inx_a n s,
    iterate_committed_mem .inx n s, fun hpos => iterate_inx_p hpos s⟩

/-- Settles O27: 0xE8 decodes to `INX` whatever byte comes after it, `INX` commits a write-back of `X + 1` to `X`, and
256 of them add a multiple of 256 (O32). -/
theorem inxInMemoryIncrements : Obligations.InxInMemoryIncrements := by
  refine ⟨decodeEntry_opcodeOf .inx, fun s codeEnd hrun hbelow hop => ?step, fun s hfits => ?row⟩
  case step =>
    have hdec : decode [s.mem.readByte s.pc, s.mem.readByte (BitVec.ofNat 16 (s.pc.toNat + 1))] =
        .ok (.inx, [s.mem.readByte (BitVec.ofNat 16 (s.pc.toNat + 1))]) := by rw [hop]; rfl
    obtain ⟨hnext, hfault⟩ := step_of_decode hrun hbelow hdec
    refine ⟨fun hle => ?_, fun htop => hfault (Nat.add_le_add_right htop.ge 1)⟩
    have hfits := Nat.add_le_add_right hle 1
    exact ⟨_, hnext hfits, aluInc_toNat s.x, rfl, State.writeBack_z .., State.writeBack_n ..,
      committed_sameReserved _ s, committed_pc_toNat hfits, rfl, rfl, rfl⟩
  case row =>
    obtain ⟨t, hrow, hx, -⟩ := repeatedIncrementsAddUp 256 s hfits
    rw [Nat.add_mod_right, Nat.mod_eq_of_lt s.x.isLt] at hx
    exact ⟨t, hrow, BitVec.eq_of_toNat_eq hx⟩

/-- Settles O23: the write-back of `X + 1`, taken modulo 256, to `X`. -/
theorem inxIncrementsWithWraparound : Obligations.InxIncrementsWithWraparound :=
  fun _ hfits => execInx_next hfits

end Sys2Proof.Machine

/-! PROOFS. The halt instruction (43_halt.md): the statements about `HALT`, executed and met in memory. -/

namespace Sys2Proof.Machine

/-- Settles O24: the end of the call with `Ok(Halted)`, at the position past the halt byte. -/
theorem haltStopsJustPastItself : Obligations.HaltStopsJustPastItself :=
  fun _ hfits => execHalt_next hfits

/-- Settles O28: 0x00 decodes to `HALT` whatever byte comes after it, and `HALT` commits the next `PC` and the end of the
call alone. -/
theorem haltInMemoryStopsTheRun : Obligations.HaltInMemoryStopsTheRun := by
  refine ⟨decodeEntry_opcodeOf .halt, fun s codeEnd hrun hbelow hop => ?_⟩
  have hdec : decode [s.mem.readByte s.pc, s.mem.readByte (BitVec.ofNat 16 (s.pc.toNat + 1))] =
      .ok (.halt, [s.mem.readByte (BitVec.ofNat 16 (s.pc.toNat + 1))]) := by rw [hop]; rfl
  obtain ⟨hnext, hfault⟩ := step_of_decode hrun hbelow hdec
  refine ⟨fun hle => ?_, fun htop => hfault (Nat.add_le_add_right htop.ge 1)⟩
  have hfits := Nat.add_le_add_right hle 1
  exact ⟨_, hnext hfits, committed_pc_toNat hfits, committed_result .halt s, committed_activity .halt s, rfl, rfl, rfl,
    committed_mem .halt s⟩

end Sys2Proof.Machine

/-! PROOFS. The errors (60_exceptions.md): what a fault leaves for the host, where each check of a step stops it, how
`load_and_run` begins, and the statements about them. -/

namespace Sys2Proof.Machine

/-! ### What a fault leaves for the host (rules R78, R79) -/

/-- A stopped core takes no step, so a step that faults is a step of a run, and the loop ends the call there. -/
theorem runLoop_of_step_fault {s : State} {e : Fault} (h : step s = .fault e) (k : Nat) :
    runLoop (k + 1) s = some (s.endCall (.err e)) := by
  have hrun : s.activity ≠ .stopped := fun hstop => by
    rw [step_stopped hstop] at h
    cases h
  rw [runLoop_succ hrun, h]

theorem hostLoad_of_load_error {s : State} {data : List Byte} {origin : Word} {e : Fault}
    (h : s.mem.load data origin = .error e) : hostLoad data origin s = s.endCall (.err e) := by
  rw [hostLoad, h]

/-! ### The checks of a step below its bound (rules R54, R74, R80) -/

section BelowBound

variable {s : State} {codeEnd : CodeEnd} (hrun : s.activity = .running codeEnd)
  (hbelow : boundReached codeEnd s.pc = false)

include hrun hbelow

/-- At the last address the fetch overflows before the decoder is asked. -/
theorem step_at_lastAddress (htop : s.pc = 0xFFFF) : step s = .fault (.addressOverflow 0xFFFF) := by
  have hover : advance s.pc 1 = .error (.addressOverflow 0xFFFF) := by rw [htop]; rfl
  rw [step_running hrun hbelow, fetch, hover]

theorem step_at_illegalByte (hlt : s.pc.toNat < 0xFFFF) (hill : decodeEntry (s.mem.readByte s.pc) = none) :
    step s = .fault (.unimplementedOpcode (s.mem.readByte s.pc)) := by
  rw [step_running hrun hbelow, fetch, advance_ok (n := 1) hlt, hill]

/-- A legal byte below the last address is executed, but for `LDA` where its operand would be the last byte: the
instruction's own statement (O25 to O28) says so. -/
theorem step_at_legalByte (hlt : s.pc.toNat < 0xFFFF) (hlegal : decodeEntry (s.mem.readByte s.pc) ≠ none)
    (hlda : s.mem.readByte s.pc = 0xA9 → s.pc.toNat < 0xFFFE) : ∃ t, step s = .next t := by
  obtain ⟨ent, hent⟩ := Option.ne_none_iff_exists'.1 hlegal
  have hop := decodeEntry_some hent
  have hle : s.pc.toNat ≤ 0xFFFE := Nat.le_of_lt_succ hlt
  cases hm : ent.mnemonic with rw [hm] at hop
  | halt => exact ((haltInMemoryStopsTheRun.2 s codeEnd hrun hbelow hop).1 hle).imp fun _ h => h.1
  | lda =>
    have hfits : s.pc.toNat ≤ 0xFFFD := Nat.le_of_lt_succ (hlda hop)
    exact ((ldaInMemoryLoadsTheNextByte.2 s codeEnd hrun hbelow hop).1 hfits).imp fun _ h => h.1
  | tax => exact ((taxInMemoryCopiesTheAccumulator.2 s codeEnd hrun hbelow hop).1 hle).imp fun _ h => h.1
  | inx => exact ((inxInMemoryIncrements.2.1 s codeEnd hrun hbelow hop).1 hle).imp fun _ h => h.1

end BelowBound

/-! ### The bytes that a load places (rule R35) -/

section Load

variable {m : Memory} (hm : m.wf = true) {a : Nat} {data : List Byte} (hfits : a + data.length ≤ Config.memSize)

include hm hfits

theorem Memory.bytesAt_writeBytes : BytesAt (m.writeBytes a data) a data := by
  intro k hk
  have haddr : (BitVec.ofNat 16 (a + k)).toNat = a + k :=
    Nat.mod_eq_of_lt (Nat.lt_of_lt_of_le (Nat.add_lt_add_left hk a) hfits)
  simp [Memory.readByte_writeBytes hm hfits, haddr, hk]

theorem Memory.readByte_writeBytes_of_outside {c : Word} (hout : c.toNat < a ∨ a + data.length ≤ c.toNat) :
    (m.writeBytes a data).readByte c = m.readByte c := by
  rw [Memory.readByte_writeBytes hm hfits, dif_neg (by omega)]

end Load

/-! ### How `load_and_run` begins (rules R77, R92)

The array has room for 32,768 bytes from the origin on. -/

section LoadAndRun

variable {code : List Byte} (s : State)

theorem startLoadAndRun_tooLarge (h : Config.maxProgramLength < code.length) :
    s.startLoadAndRun code = s.endCall (.err (.programTooLarge code.length)) :=
  if_pos h

theorem startLoadAndRun_outOfBounds (hlt : 32768 < code.length) (hle : code.length ≤ Config.maxProgramLength) :
    s.startLoadAndRun code = s.endCall (.err (.outOfBounds Config.codeOrigin code.length)) := by
  have hload : s.mem.load code Config.codeOrigin = .error (.outOfBounds Config.codeOrigin code.length) :=
    if_pos (Nat.add_lt_add_left hlt 32768)
  rw [State.startLoadAndRun, if_neg (Nat.not_lt.2 hle), hload]

theorem startLoadAndRun_accepted (hle : code.length ≤ 32768) :
    s.startLoadAndRun code =
      ((s.setMem (s.mem.writeBytes 0x8000 code)).setPc Config.codeOrigin).startRun none := by
  have hload : s.mem.load code Config.codeOrigin = .ok (s.mem.writeBytes 0x8000 code) :=
    if_neg (Nat.not_lt.2 (Nat.add_le_add_left hle 32768))
  rw [State.startLoadAndRun, if_neg (Nat.not_lt.2 (hle.trans (by decide))), hload]

variable {s}

/-- A call that has ended before its run returns at once. -/
theorem loadAndRun_of_ended {r : RunResult} (h : s.startLoadAndRun code = s.endCall r) :
    loadAndRun code s = some (s.endCall r) := by
  rw [loadAndRun, h, runLoop_stopped (State.endCall_activity s r)]

/-- Both length checks together: the second is the stronger one. -/
theorem codeAccepted_eq_false_iff : codeAccepted code = false ↔ 32768 < code.length := by
  rw [← Bool.not_eq_true, codeAccepted, fitsFrom, Bool.and_eq_true, decide_eq_true_eq, decide_eq_true_eq]
  have horigin : Config.codeOrigin.toNat = 32768 := rfl
  simp only [horigin, Config.maxProgramLength, Config.memSize]
  omega

end LoadAndRun

/-! ### The statements -/

/-- Settles O36: each check is met with the ones before it passed, and a byte that passes all four is an instruction
that fits; the length of the code is checked before its bounds. -/
theorem checksRunInPriorityOrder : Obligations.ChecksRunInPriorityOrder := by
  refine ⟨fun s codeEnd hrun => ?step, fun code s hlong => ?call⟩
  case step =>
    split_ifs with hbound htop hill hlda
    · exact step_bound hrun hbound
    all_goals have hbelow := Bool.eq_false_of_not_eq_true hbound
    · exact step_at_lastAddress hrun hbelow htop
    all_goals have hlt : s.pc.toNat < 0xFFFF := by bv_omega
    · exact step_at_illegalByte hrun hbelow hlt hill
    · obtain ⟨hop, hpc⟩ := hlda
      have hover := (ldaInMemoryLoadsTheNextByte.2 s codeEnd hrun hbelow hop).2 (by rw [hpc]; decide)
      rwa [hpc] at hover
    · exact step_at_legalByte hrun hbelow hlt hill fun hop => by bv_omega
  case call => rw [startLoadAndRun_tooLarge s hlong, State.endCall_result]

/-- Settles O50: a failed check ends the call before its run; otherwise the load has placed the code, and the call goes
on as the direct run. -/
theorem loadAndRunStartsAtTheOrigin : Obligations.LoadAndRunStartsAtTheOrigin := by
  refine fun s code hm => ⟨fun hlong => ?tooLarge, fun hlt hle => ?outOfBounds, fun hle => ?accepted⟩
  case tooLarge => exact loadAndRun_of_ended (startLoadAndRun_tooLarge s hlong)
  case outOfBounds => exact loadAndRun_of_ended (startLoadAndRun_outOfBounds s hlt hle)
  case accepted =>
    have hfits : 0x8000 + code.length ≤ Config.memSize := Nat.add_le_add_left hle 0x8000
    refine ⟨s.mem.writeBytes 0x8000 code, ?_, Memory.bytesAt_writeBytes hm hfits,
      fun _ => Memory.readByte_writeBytes_of_outside hm hfits⟩
    rw [loadAndRun, startLoadAndRun_accepted s hle]
    rfl

/-- Settles O39: below 0xFFFF the decoder is asked and finds no entry, and the loop ends the call at that fault. -/
theorem illegalByteEndsTheRunPrecisely : Obligations.IllegalByteEndsTheRunPrecisely := by
  intro s codeEnd k hrun hbelow hlt hill
  have hfault := step_at_illegalByte hrun hbelow hlt hill
  exact ⟨hfault, runLoop_of_step_fault hfault k⟩

/-- Settles O49: a fault answers no next state, so the call ends with the state before it; code that `load_and_run`
does not accept fails one of its two checks before anything is written. -/
theorem errorsArePrecise : Obligations.ErrorsArePrecise := by
  refine ⟨fun _ _ k h => runLoop_of_step_fault h k, fun _ _ _ _ => hostLoad_of_load_error, fun s code hrefused => ?_⟩
  have hlt := codeAccepted_eq_false_iff.1 hrefused
  rcases Nat.lt_or_ge 65536 code.length with hlong | hle
  · exact ⟨_, loadAndRun_of_ended (startLoadAndRun_tooLarge s hlong)⟩
  · exact ⟨_, loadAndRun_of_ended (startLoadAndRun_outOfBounds s hlt hle)⟩

end Sys2Proof.Machine

/-! PROOFS. Encoding and decoding whole programs (30_encoding.md): the decoder on encoded instructions and programs, and
the statements about the two directions. -/

namespace Sys2Proof

/-! ### One instruction (rules R42, R47) -/

/-- The decoder reads an instruction's own bytes, and no byte after them. -/
@[simp] theorem decode_encode_append (i : Instr) (rest : List Byte) : decode (encode i ++ rest) = .ok (i, rest) := by
  cases i with
  | halt => rfl
  | lda imm => rfl
  | tax => rfl
  | inx => rfl

theorem opcodeRow_statement (i : Instr) : Laws.OpcodeRow.Statement i := by
  cases i with
  | halt => exact Laws.OpcodeRow.halt
  | lda imm => exact Laws.OpcodeRow.lda imm
  | tax => exact Laws.OpcodeRow.tax
  | inx => exact Laws.OpcodeRow.inx

/-! ### Whole programs (rule R51) -/

theorem length_le_encodeProgram_length (is : List Instr) : is.length ≤ (encodeProgram is).length := by
  induction is with
  | nil => exact Nat.le_refl 0
  | cons i is ih =>
    have hpos := Machine.instr_length_pos i
    rw [encodeProgram, List.length_append, encode_length, List.length_cons]
    omega

/-- With fuel for one more instruction, an accepted instruction goes in front of what the rest decodes to. -/
theorem decodeAll_succ_of_decode {fuel : Nat} {bytes rest : List Byte} {i : Instr} {is : List Instr}
    (hi : decode bytes = .ok (i, rest)) (his : decodeAll fuel rest = .ok is) :
    decodeAll (fuel + 1) bytes = .ok (i :: is) := by
  cases bytes with
  | nil => cases hi
  | cons op tail => simp only [decodeAll, hi, his]

/-- An accepted non-empty sequence is one accepted instruction and an accepted rest. -/
theorem decodeAll_succ_ok_inv {fuel : Nat} {op : Byte} {tail : List Byte} {is : List Instr}
    (h : decodeAll (fuel + 1) (op :: tail) = .ok is) :
    ∃ i rest js, decode (op :: tail) = .ok (i, rest) ∧ decodeAll fuel rest = .ok js ∧ is = i :: js := by
  rw [decodeAll] at h
  split at h
  · cases h
  · rename_i i rest hi
    split at h
    · cases h
    · rename_i js hjs
      cases h
      exact ⟨i, rest, js, hi, hjs, rfl⟩
  · nofun

theorem decodeAll_encodeProgram {fuel : Nat} {is : List Instr} (h : is.length ≤ fuel) :
    decodeAll fuel (encodeProgram is) = .ok is := by
  induction is generalizing fuel with
  | nil => cases fuel <;> rfl
  | cons i is ih =>
    cases fuel with
    | zero => cases h
    | succ fuel => exact decodeAll_succ_of_decode (decode_encode_append i _) (ih (Nat.le_of_succ_le_succ h))

theorem decodeProgram_encodeProgram (is : List Instr) : decodeProgram (encodeProgram is) = .ok is :=
  decodeAll_encodeProgram (length_le_encodeProgram_length is)

/-- A sequence has one decoding at most, so the program is determined by its bytes. -/
theorem encodeProgram_injective : Function.Injective encodeProgram := by
  intro is js h
  have hdec := decodeProgram_encodeProgram is
  rw [h, decodeProgram_encodeProgram] at hdec
  cases hdec
  rfl

theorem encodeProgram_of_decodeAll {fuel : Nat} {bytes : List Byte} {is : List Instr}
    (h : decodeAll fuel bytes = .ok is) : encodeProgram is = bytes := by
  induction fuel generalizing bytes is with
  | zero =>
    cases bytes with
    | nil => cases h; rfl
    | cons op tail => cases h
  | succ fuel ih =>
    cases bytes with
    | nil => cases h; rfl
    | cons op tail =>
      obtain ⟨i, rest, js, hi, hjs, rfl⟩ := decodeAll_succ_ok_inv h
      rw [encodeProgram, ih hjs, ← decode_ok hi]

/-! ### The statements -/

/-- Settles O13: the decoder takes each instruction's own bytes off the front, by induction over the program, and a left
inverse makes the encoding injective. -/
theorem decodeAndEncodeAgreeOnPrograms : Obligations.DecodeAndEncodeAgreeOnPrograms :=
  ⟨decodeProgram_encodeProgram, fun _ _ h => encodeProgram_injective h⟩

/-- Settles O12: each instruction the decoder accepts is its own bytes at the front of the sequence, by induction over
the fuel. -/
theorem decodedProgramsReencode : Obligations.DecodedProgramsReencode :=
  fun _ _ h => encodeProgram_of_decodeAll h

/-- Settles O11: the four instructions, each with its format. -/
theorem decodeReadsBackEncode : Obligations.DecodeReadsBackEncode := decode_encode_append

/-- Settles O14: the accepted bytes begin with the instruction's own encoding, and its row of the opcode map says the
rest. -/
theorem opcodeByteDecidesTheLength : Obligations.OpcodeByteDecidesTheLength := by
  intro op tail rest i h
  have hbytes := decode_ok h
  obtain ⟨op', operands, ent, henc, hent, hmnemonic, hlen, hoperands⟩ := opcodeRow_statement i
  have hcount : i.length = 1 + operands.length := by
    rw [← encode_length, henc, List.length_cons, Nat.add_comm]
  have hop : op = op' := by
    rw [henc] at hbytes
    exact (List.cons.inj hbytes).1
  refine ⟨ent, hop ▸ hent, hmnemonic, hlen.symm, ?mode, ?consumed⟩
  case mode => rw [hlen, hcount, hoperands]
  case consumed => rw [hbytes, List.length_append, encode_length, hlen]

/-- Settles O10: each word begins with a legal opcode and its operand bytes, or with the ILLEGAL byte 0x4C. -/
theorem wordsOfEachFormatDecode : Obligations.WordsOfEachFormatDecode :=
  ⟨decode_encode_append (.lda 0xC0) [], decode_encode_append .tax [], decode_encode_append .inx [0x00],
    decode_encode_append .halt [], rfl, rfl⟩

end Sys2Proof

/-! PROOFS. Memory as data (10_state.md section 5, 20_memory.md): canonical listings that read alike, what keeps the
canonical form, and the statements about them and about the loader. -/

namespace Sys2Proof.Machine.Memory

/-! ### Canonical listings that read alike -/

@[simp] theorem lookup_cons_self (k : Nat) (v : Byte) (rest : Memory) : lookup ((k, v) :: rest) k = v := if_pos rfl

/-- An address that reads as something other than the fill is not below the first listed one. -/
theorem le_of_lookup_ne_fill {lo a : Nat} {m : Memory} (h : wfFrom lo m = true) (ha : m.lookup a ≠ Config.memoryFill) :
    lo ≤ a :=
  Nat.le_of_not_lt fun hlt => ha (lookup_below h hlt)

/-- The first cell of a canonical listing is read back, and its byte is not the fill. -/
theorem lookup_head_ne_fill {lo k : Nat} {v : Byte} {rest : Memory} (h : wfFrom lo ((k, v) :: rest) = true) :
    lookup ((k, v) :: rest) k ≠ Config.memoryFill := by
  rw [lookup_cons_self]
  exact (wfFrom_cons.1 h).2.2.1

/-- A canonical listing begins at its own first address. -/
theorem wfFrom_head {lo k : Nat} {v : Byte} {rest : Memory} (h : wfFrom lo ((k, v) :: rest) = true) :
    wfFrom k ((k, v) :: rest) = true :=
  wfFrom_cons.2 ⟨Nat.le_refl k, (wfFrom_cons.1 h).2⟩

/-- The rests of two listings with one first cell read alike where the listings do. -/
theorem lookup_rest_eq {k a : Nat} {v : Byte} {rest rest' : Memory} (hrest : wfFrom (k + 1) rest = true)
    (hrest' : wfFrom (k + 1) rest' = true) (h : lookup ((k, v) :: rest) a = lookup ((k, v) :: rest') a) :
    rest.lookup a = rest'.lookup a := by
  by_cases hka : k = a
  · subst hka
    rw [lookup_below hrest k.lt_succ_self, lookup_below hrest' k.lt_succ_self]
  · rwa [lookup, lookup, if_neg hka, if_neg hka] at h

/-- The first addresses agree, since each is the least address that does not read as the fill; then the first bytes do,
and the rests read alike. -/
theorem eq_of_lookup_eq {lo lo' : Nat} {m m' : Memory} (hm : wfFrom lo m = true) (hm' : wfFrom lo' m' = true)
    (h : ∀ a, a < Config.memSize → m.lookup a = m'.lookup a) : m = m' := by
  induction m generalizing lo lo' m' with
  | nil =>
    cases m' with
    | nil => rfl
    | cons c' rest' =>
      exact absurd (h c'.1 (wfFrom_cons.1 hm').2.1).symm (lookup_head_ne_fill hm')
  | cons c rest ih =>
    obtain ⟨k, v⟩ := c
    obtain ⟨-, hk, -, hrest⟩ := wfFrom_cons.1 hm
    cases m' with
    | nil => exact absurd (h k hk) (lookup_head_ne_fill hm)
    | cons c' rest' =>
      obtain ⟨k', v'⟩ := c'
      obtain ⟨-, hk', -, hrest'⟩ := wfFrom_cons.1 hm'
      have hfirst : k = k' := Nat.le_antisymm
        (le_of_lookup_ne_fill (wfFrom_head hm) (h k' hk' ▸ lookup_head_ne_fill hm'))
        (le_of_lookup_ne_fill (wfFrom_head hm') (h k hk ▸ lookup_head_ne_fill hm))
      subst hfirst
      have hbyte : v = v' := by simpa using h k hk
      subst hbyte
      rw [ih hrest hrest' fun a ha => lookup_rest_eq hrest hrest' (h a ha)]

theorem lookup_eq_of_sameBytes {m m' : Memory} (h : SameBytes m m') {a : Nat} (ha : a < Config.memSize) :
    m.lookup a = m'.lookup a := by
  have hto : (BitVec.ofNat 16 a).toNat = a := Nat.mod_eq_of_lt ha
  simpa only [readByte, hto] using h (BitVec.ofNat 16 a)

/-! ### What keeps the canonical form -/

theorem writeWord_wf {m m' : Memory} {a v : Word} (hm : m.wf = true) (h : m.writeWord a v = .ok m') : m'.wf = true := by
  obtain ⟨-, rfl⟩ := writeWord_ok_inv h
  exact writeByte_wf (writeByte_wf hm _ _) _ _

theorem load_wf {m m' : Memory} {data : List Byte} {origin : Word} (hm : m.wf = true)
    (h : m.load data origin = .ok m') : m'.wf = true := by
  rcases load_cases m data origin with ⟨-, hload⟩ | ⟨-, hload⟩ <;> rw [hload] at h <;> cases h
  exact writeBytes_wf hm _ _

/-! ### Where a load succeeds (rule R35) -/

theorem load_ok {data : List Byte} {origin : Word} (m : Memory) (h : origin.toNat + data.length ≤ Config.memSize) :
    m.load data origin = .ok (m.writeBytes origin.toNat data) :=
  if_neg (Nat.not_lt.2 h)

theorem load_error {data : List Byte} {origin : Word} (m : Memory) (h : Config.memSize < origin.toNat + data.length) :
    m.load data origin = .error (.outOfBounds origin data.length) :=
  if_pos h

/-! ### The statements -/

/-- Settles O3: every address a canonical listing can hold is a word, so the listings agree cell by cell from the
front. -/
theorem memoriesThatReadAlikeAreEqual : Obligations.MemoriesThatReadAlikeAreEqual :=
  fun _ _ hm hm' h => eq_of_lookup_eq hm hm' fun _ => lookup_eq_of_sameBytes h

/-- Settles O4: each operation that answers a memory is a row of byte writes. -/
theorem memoryOperationsKeepCanonicalForm : Obligations.MemoryOperationsKeepCanonicalForm :=
  fun _ _ hm => ⟨writeByte_wf hm, fun _ _ => writeWord_wf hm, fun _ _ => load_wf hm⟩

/-- Settles O8: the one check comes before the first write, and the writes are at different addresses. -/
theorem loaderCopiesAllOrNothing : Obligations.LoaderCopiesAllOrNothing := by
  refine fun s data origin hm => ⟨fun hfits => ?copied, fun hover => ?refused⟩
  case copied =>
    have hload := load_ok s.mem hfits
    refine ⟨_, hload, ?_, bytesAt_writeBytes hm hfits, fun _ => readByte_writeBytes_of_outside hm hfits⟩
    rw [hostLoad, hload]
    rfl
  case refused =>
    have hload := load_error s.mem hover
    rw [hostLoad_of_load_error hload]
    exact ⟨hload, rfl, rfl, rfl, rfl, rfl⟩

end Sys2Proof.Machine.Memory

/-! PROOFS. One step (40_fetch_decode_execute.md, 60_exceptions.md): the frame of an instruction, the instruction a step
runs, what a step can raise, and the statements about them. -/

namespace Sys2Proof.Machine

/-! ### `flag_update` (rules R59, R60) -/

/-- Bits 6:2 are reserved. -/
theorem extractLsb'_reserved_of_sameReserved {p p' : Byte} (h : SameReserved p p') :
    p'.extractLsb' 2 5 = p.extractLsb' 2 5 := by
  refine BitVec.eq_of_getLsbD_eq fun k hk => ?_
  rw [BitVec.getLsbD_extractLsb', BitVec.getLsbD_extractLsb', h (2 + k) (by omega) (by omega) (by omega)]

/-- A byte that sets Z is 0, so its bit 7 does not set N. -/
theorem flagUpdate_not_zero_and_negative (old r : Byte) :
    ¬ ((flagUpdate old r).getLsbD 1 = true ∧ (flagUpdate old r).getLsbD 7 = true) := by
  rintro ⟨hzero, hnegative⟩
  rw [flagUpdate_zeroFlag, decide_eq_true_eq] at hzero
  rw [flagUpdate_negativeFlag, getLsbD_seven_eq_decide, hzero] at hnegative
  cases hnegative

/-! ### The instruction a step runs, and the errors it raises (rules R54, R55, R73) -/

theorem instr_length_le_two (i : Instr) : i.length ≤ 2 := by
  cases i with
  | lda imm => exact Nat.le_refl 2
  | _ => exact Nat.le_succ 1

/-- Below its bound, a step of a run is the instruction that the bytes at `PC` decode to, at 0xFFFF too. -/
theorem step_eq_exec_of_decode {s : State} {codeEnd : CodeEnd} {i : Instr} {rest : List Byte}
    (hrun : s.activity = .running codeEnd) (hbelow : boundReached codeEnd s.pc = false)
    (hdec : decode [s.mem.readByte s.pc, s.mem.readByte (BitVec.ofNat 16 (s.pc.toNat + 1))] = .ok (i, rest)) :
    step s = exec i s := by
  obtain ⟨hnext, hfault⟩ := step_of_decode hrun hbelow hdec
  rcases exec_cases i s with ⟨hover, hs⟩ | ⟨hfits, hs⟩
  · rw [hs, hfault hover]
  · rw [hs, hnext hfits]

/-- The faults of a step (rules R74, R75). -/
def StepFaultOf (s : State) (e : Fault) : Prop :=
  (e = .addressOverflow s.pc ∧ 0xFFFE ≤ s.pc.toNat) ∨
    (e = .unimplementedOpcode (s.mem.readByte s.pc) ∧ decodeEntry (s.mem.readByte s.pc) = none)

/-- A step answers a next state or one of the two faults: an instruction is at most two bytes long, so one that
overflows is at one of the two last addresses. -/
theorem step_next_or_fault (s : State) :
    (∃ t, step s = .next t) ∨ ∃ e, step s = .fault e ∧ StepFaultOf s e := by
  rcases step_cases s with ⟨-, hs⟩ | ⟨_, -, ⟨-, hs⟩ | ⟨-, ⟨htop, hs⟩ | ⟨-, hill, hs⟩ | ⟨-, i, -, -, hs⟩⟩⟩
  · exact .inl ⟨_, hs⟩
  · exact .inl ⟨_, hs⟩
  · exact .inr ⟨_, hs, .inl ⟨rfl, by omega⟩⟩
  · exact .inr ⟨_, hs, .inr ⟨rfl, hill⟩⟩
  · have hlen := instr_length_le_two i
    rcases exec_cases i s with ⟨hover, he⟩ | ⟨-, he⟩ <;> rw [← hs] at he
    · exact .inr ⟨_, he, .inl ⟨rfl, by omega⟩⟩
    · exact .inl ⟨_, he⟩

theorem step_ne_refused (s : State) (r : Refusal) : step s ≠ .refused r := by
  intro h
  rcases step_next_or_fault s with ⟨t, hs⟩ | ⟨e, hs, -⟩ <;> rw [h] at hs <;> cases hs

theorem stepFaultOf_of_step {s : State} {e : Fault} (h : step s = .fault e) : StepFaultOf s e := by
  rcases step_next_or_fault s with ⟨t, hs⟩ | ⟨e', hs, he⟩ <;> rw [h] at hs <;> cases hs
  exact he

/-- The host's interface runs on from a step's next state. -/
theorem core_run_succ_of_step {M : Host.Core} {s t : M.State} (h : M.step s = .next t) (k : Nat) :
    M.run (k + 1) s = M.run k t := by
  rw [Host.Core.run, h]

/-! ### The word the host places at `PC` (rule R93) -/

/-- A word that the decoder accepts is two bytes in front of it. -/
theorem decode_tableBytes_of_decodeTableWord {nbits w : Nat} {i : Instr} (h : decodeTableWord nbits w = some i) :
    ∃ rest, decode (tableBytes nbits w) = .ok (i, rest) := by
  rw [decodeTableWord] at h
  split at h
  · rename_i rest hdec
    cases h
    exact ⟨rest, hdec⟩
  · cases h

theorem bytesAt_head {m : Memory} {a : Word} {b : Byte} {rest : List Byte} (h : BytesAt m a.toNat (b :: rest)) :
    m.readByte a = b := by
  have hfirst := h 0 (Nat.succ_pos _)
  rwa [Nat.add_zero, BitVec.ofNat_toNat, BitVec.setWidth_eq] at hfirst

/-- Two bytes in memory, at an address and after it. -/
theorem bytesAt_pair {m : Memory} {a : Word} {b b' : Byte} {rest : List Byte}
    (h : BytesAt m a.toNat (b :: b' :: rest)) :
    m.readByte a = b ∧ m.readByte (BitVec.ofNat 16 (a.toNat + 1)) = b' :=
  ⟨bytesAt_head h, h 1 (Nat.succ_lt_succ (Nat.succ_pos _))⟩

/-- Below 0xFFFF both bytes of the word are stored. -/
theorem withFetchWord_bytesAt {s : State} (hm : s.mem.wf = true) (hlt : s.pc.toNat < 0xFFFF) (nbits w : Nat) :
    BytesAt (s.withFetchWord nbits w).mem s.pc.toNat (tableBytes nbits w) := by
  have hlen : (tableBytes nbits w).length ≤ Config.memSize - s.pc.toNat := by
    simp only [tableBytes, List.length_cons, List.length_nil, Config.memSize]
    omega
  have hfits : s.pc.toNat + (tableBytes nbits w).length ≤ Config.memSize := by
    simp only [tableBytes, List.length_cons, List.length_nil, Config.memSize]
    omega
  rw [State.withFetchWord, List.take_of_length_le hlen]
  exact Memory.bytesAt_writeBytes hm hfits

/-! ### The statements -/

/-- Settles O18: the reserved bits pass through, Z and N are those of the new byte, and the reserved bits are all that is
read of the old ones. -/
theorem flagUpdateNeverSetsBothAndForgetsOldFlags : Obligations.FlagUpdateNeverSetsBothAndForgetsOldFlags := by
  intro old old' r
  have hreserved := flagUpdate_sameReserved old r
  exact ⟨flagUpdate_not_zero_and_negative old r, extractLsb'_reserved_of_sameReserved hreserved,
    hreserved 0 (by decide) (by decide) (by decide), fun h => (flagUpdate_of_sameReserved h r).symm,
    flagUpdate_of_sameReserved hreserved r⟩

/-- Settles O29: a next state is the committed one, which each instruction writes its own fields of. -/
theorem instructionsChangeOnlyWhatTheyName : Obligations.InstructionsChangeOnlyWhatTheyName := by
  intro i s t h
  have hreserved := exec_next_sameReserved h
  obtain ⟨-, rfl⟩ := exec_next_inv h
  refine ⟨fun hlda => ?a, fun htax hinx => ?x, ?p, hreserved, fun hhalt => ?run, fun addr => by rw [committed_mem]⟩
  case a =>
    cases i with
    | lda imm => exact absurd rfl (hlda imm)
    | _ => rfl
  case x =>
    cases i with
    | tax => exact absurd rfl htax
    | inx => exact absurd rfl hinx
    | _ => rfl
  case p => rintro rfl; rfl
  case run => rw [committed_result, committed_activity, if_neg hhalt, if_neg hhalt]; exact ⟨rfl, rfl⟩

/-- Settles O33: the decoder has one answer for two bytes, which the fetch is given. -/
theorem stepRunsTheDecodedInstruction : Obligations.StepRunsTheDecodedInstruction :=
  fun _ _ _ _ hrun hbelow _ hdec => step_eq_exec_of_decode hrun hbelow hdec

/-- Settles O37: no step changes the state, by induction over their number. -/
theorem stoppedCoreTakesNoStep : Obligations.StoppedCoreTakesNoStep := by
  refine fun s k hstop => ⟨step_stopped hstop, ?_⟩
  induction k with
  | zero => rfl
  | succ k ih => exact (core_run_succ_of_step (M := core) (step_stopped hstop) k).trans ih

/-- Settles O38: the checks of a step and the advance of its instruction raise these two errors alone. -/
theorem stepsAreNeverRefusedAndFaultInTwoWays : Obligations.StepsAreNeverRefusedAndFaultInTwoWays :=
  fun s => ⟨step_ne_refused s, (step_next_or_fault s).imp_right fun ⟨e, hs, _⟩ => ⟨e, hs⟩,
    fun _ => stepFaultOf_of_step⟩

/-- Settles O34: the word's two bytes are read back at `PC` and after it, so the step's fetch decodes the word. -/
theorem placedWordIsExecutedNext : Obligations.PlacedWordIsExecutedNext := by
  intro s nbits w i hm hlt hword
  obtain ⟨rest, hdec⟩ := decode_tableBytes_of_decodeTableWord hword
  obtain ⟨hfirst, hsecond⟩ := bytesAt_pair (withFetchWord_bytesAt hm hlt nbits w)
  refine ⟨step_eq_exec_of_decode (codeEnd := none) (rest := rest) rfl rfl ?_, rfl, rfl, rfl, rfl⟩
  rw [← hdec, tableBytes, ← hfirst, ← hsecond]
  rfl

end Sys2Proof.Machine

/-! PROOFS. The invariant (10_state.md, 60_exceptions.md section 1): canonical memory and a legal `RESULT` at reset,
through a step, a run, a host call and a session of calls, and the statements about it. -/

namespace Sys2Proof.Machine

/-! ### Through a step and a run -/

/-- No instruction stores to memory. -/
theorem step_next_mem {s t : State} (h : step s = .next t) : t.mem = s.mem := by
  rcases step_next_cases h with rfl | rfl | ⟨i, hi⟩
  · rfl
  · rfl
  · obtain ⟨-, rfl⟩ := exec_next_inv hi
    exact committed_mem i s

theorem step_next_stateInv {s t : State} (hs : StateInv s) (h : step s = .next t) : StateInv t := by
  refine ⟨step_next_mem h ▸ hs.memory, ?_⟩
  rcases step_next_cases h with rfl | rfl | ⟨i, hi⟩
  · exact hs.result
  · exact trivial
  · obtain ⟨-, rfl⟩ := exec_next_inv hi
    rw [committed_result]
    split
    · exact trivial
    · exact hs.result

theorem resultLegal_of_stepFaultOf {s : State} {e : Fault} (h : StepFaultOf s e) : resultLegal (.err e) := by
  rcases h with ⟨rfl, htop⟩ | ⟨rfl, hill⟩
  · exact htop
  · exact hill

theorem endCall_stateInv {s : State} {r : RunResult} (hs : StateInv s) (hr : resultLegal r) :
    StateInv (s.endCall r) :=
  ⟨hs.memory, hr⟩

theorem runLoop_stateInv {k : Nat} {s t : State} (hs : StateInv s) (hrun : runLoop k s = some t) : StateInv t :=
  runLoop_keeps (fun hu hstep => step_next_stateInv hu hstep)
    (fun hu hstep => endCall_stateInv hu (resultLegal_of_stepFaultOf (stepFaultOf_of_step hstep))) hs hrun

/-! ### Through a host call -/

/-- A host call has an effect at rest alone. -/
theorem hostCall_some_inv {c : HostCall} {s t : State} (h : hostCall c s = some t) :
    s.activity = .stopped ∧ c.apply s = some t := by
  rw [hostCall] at h
  split at h
  · exact ⟨‹_›, h⟩
  · cases h

theorem hostWriteWord_stateInv {s : State} (hs : StateInv s) (a v : Word) : StateInv (hostWriteWord a v s) := by
  by_cases htop : a = 0xFFFF
  · subst htop
    have hover : Config.memSize < (0xFFFF : Word).toNat + 2 := by decide
    rw [hostWriteWord, Memory.writeWord_top]
    exact endCall_stateInv hs hover
  · have hw := Memory.writeWord_ok s.mem htop v
    rw [hostWriteWord, hw]
    exact ⟨Memory.writeWord_wf hs.memory hw, hs.result⟩

theorem hostLoad_stateInv {s : State} (hs : StateInv s) (data : List Byte) (origin : Word) :
    StateInv (hostLoad data origin s) := by
  rcases Memory.load_cases s.mem data origin with ⟨hover, hload⟩ | ⟨-, hload⟩ <;> rw [hostLoad, hload]
  · exact endCall_stateInv hs hover
  · exact ⟨Memory.writeBytes_wf hs.memory _ _, hs.result⟩

theorem startLoadAndRun_stateInv {s : State} (hs : StateInv s) (code : List Byte) :
    StateInv (s.startLoadAndRun code) := by
  rcases Nat.lt_or_ge Config.maxProgramLength code.length with hlong | hle
  · rw [startLoadAndRun_tooLarge s hlong]
    exact endCall_stateInv hs hlong
  rcases Nat.lt_or_ge 32768 code.length with hlt | hle'
  · rw [startLoadAndRun_outOfBounds s hlt hle]
    exact endCall_stateInv hs (Nat.add_lt_add_left hlt 32768)
  · rw [startLoadAndRun_accepted s hle']
    exact ⟨Memory.writeBytes_wf hs.memory _ _, hs.result⟩

theorem hostCall_stateInv {c : HostCall} {s t : State} (hs : StateInv s) (h : hostCall c s = some t) :
    StateInv t := by
  obtain ⟨-, happly⟩ := hostCall_some_inv h
  cases c with
  | setA v => cases happly; exact ⟨hs.memory, hs.result⟩
  | setX v => cases happly; exact ⟨hs.memory, hs.result⟩
  | setP v => cases happly; exact ⟨hs.memory, hs.result⟩
  | setPc v => cases happly; exact ⟨hs.memory, hs.result⟩
  | writeByte a v => cases happly; exact ⟨Memory.writeByte_wf hs.memory a v, hs.result⟩
  | writeWord a v => cases happly; exact hostWriteWord_stateInv hs a v
  | load data origin => cases happly; exact hostLoad_stateInv hs data origin
  | run codeEnd =>
    have hstart : StateInv (s.startRun codeEnd) := ⟨hs.memory, hs.result⟩
    exact runLoop_stateInv hstart happly
  | loadAndRun code => exact runLoop_stateInv (startLoadAndRun_stateInv hs code) happly

/-! ### The statements -/

/-- Settles O42: the empty listing is canonical, and no call has been made. -/
theorem resetMeetsTheStateInvariant : Obligations.ResetMeetsTheStateInvariant := ⟨rfl, trivial⟩

/-- Settles O43: a step keeps memory, and leaves `RESULT` or writes a normal stop. -/
theorem stepKeepsTheStateInvariant : Obligations.StepKeepsTheStateInvariant :=
  fun _ _ => step_next_stateInv

/-- Settles O44: each host call keeps the invariant, a run by induction over its steps, and so does a session by
induction over its calls. -/
theorem hostSessionsKeepTheStateInvariant : Obligations.HostSessionsKeepTheStateInvariant := by
  intro calls s t hs h
  induction calls generalizing s with
  | nil => cases h; exact hs
  | cons c calls ih =>
    rw [hostSession] at h
    split at h
    · cases h
    · exact ih _ (hostCall_stateInv hs ‹_›) h

end Sys2Proof.Machine

/-! PROOFS. Whole runs (40_fetch_decode_execute.md sections 9 and 10, 70_reset_and_hazards.md): the induction over the
loop, how and when a run ends, what its end depends on, loaded programs, and the statements about them. -/

namespace Sys2Proof.Machine

/-! ### The loop (rule R64) -/

theorem runLoop_of_step_next {s u : State} (hrun : s.activity ≠ .stopped) (h : step s = .next u) (k : Nat) :
    runLoop (k + 1) s = runLoop k u := by
  rw [runLoop_succ hrun, h]

/-- The induction over a run that returns, with its fuel, its start and its end: the core is at rest, or a step goes on,
or a step's error ends the call. -/
theorem runLoop_induction {motive : Nat → State → State → Prop}
    (rest : ∀ k s, s.activity = .stopped → motive k s s)
    (next : ∀ k s u t, s.activity ≠ .stopped → step s = .next u → motive k u t → motive (k + 1) s t)
    (fault : ∀ k s e, step s = .fault e → motive (k + 1) s (s.endCall (.err e)))
    {k : Nat} {s t : State} (h : runLoop k s = some t) : motive k s t := by
  induction k generalizing s with
  | zero =>
    rw [runLoop] at h
    split at h <;> cases h
    exact rest 0 _ ‹_›
  | succ k ih =>
    by_cases hrest : s.activity = .stopped
    · rw [runLoop_stopped hrest] at h
      cases h
      exact rest (k + 1) _ hrest
    · rw [runLoop_succ hrest] at h
      cases hstep : step s with rw [hstep] at h
      | next u => exact next k s u t hrest hstep (ih h)
      | fault e => cases h; exact fault k s e hstep
      | refused r => cases h

theorem runLoop_some_stopped {k : Nat} {s t : State} (h : runLoop k s = some t) : t.activity = .stopped :=
  runLoop_induction (motive := fun _ _ t => t.activity = .stopped) (fun _ _ hrest => hrest)
    (fun _ _ _ _ _ _ ht => ht) (fun _ _ _ _ => rfl) h

/-- More fuel gives the same end. -/
theorem runLoop_add {k : Nat} {s t : State} (h : runLoop k s = some t) (j : Nat) : runLoop (k + j) s = some t := by
  refine runLoop_induction (motive := fun k s t => runLoop (k + j) s = some t) ?rest ?next ?fault h
  case rest => exact fun k s hrest => runLoop_stopped hrest (k + j)
  case next =>
    intro k s u t hrun hstep ih
    rw [Nat.add_right_comm, runLoop_of_step_next hrun hstep, ih]
  case fault =>
    intro k s e hstep
    rw [Nat.add_right_comm, runLoop_of_step_fault hstep]

/-! ### Every run ends (rule R68) -/

/-- A step of a run that goes on moves `PC` up, and a step that does not has ended the run. -/
theorem step_next_stopped_or_pc_lt {s t : State} (hrun : s.activity ≠ .stopped) (h : step s = .next t) :
    t.activity = .stopped ∨ s.pc.toNat < t.pc.toNat := by
  cases hact : s.activity with
  | stopped => exact absurd hact hrun
  | running codeEnd =>
    rcases step_next_of_running hact h with ⟨-, rfl⟩ | ⟨i, _, -, hfits, rfl⟩
    · exact .inl rfl
    · rw [committed_pc_toNat hfits]
      exact .inr (Nat.lt_add_of_pos_right (instr_length_pos i))

theorem step_next_pc_le {s t : State} (h : step s = .next t) : s.pc.toNat ≤ t.pc.toNat := by
  rcases step_next_cases h with rfl | rfl | ⟨i, hi⟩
  · exact Nat.le_refl _
  · exact Nat.le_refl s.pc.toNat
  · obtain ⟨hfits, rfl⟩ := exec_next_inv hi
    rw [committed_pc_toNat hfits]
    exact Nat.le_add_right _ _

/-- `PC` stays below 0x10000, so the fuel that is left over its distance to there is never used up. -/
theorem runLoop_returns {k : Nat} {s : State} (h : 0x10000 ≤ s.pc.toNat + k) : ∃ t, runLoop k s = some t := by
  induction k generalizing s with
  | zero => exact absurd h (Nat.not_le.2 s.pc.isLt)
  | succ k ih =>
    by_cases hrest : s.activity = .stopped
    · exact ⟨s, runLoop_stopped hrest _⟩
    rcases step_next_or_fault s with ⟨u, hs⟩ | ⟨e, hs, -⟩
    · rw [runLoop_of_step_next hrest hs]
      rcases step_next_stopped_or_pc_lt hrest hs with hstop | hlt
      · exact ⟨u, runLoop_stopped hstop k⟩
      · exact ih (by omega)
    · exact ⟨_, runLoop_of_step_fault hs k⟩

theorem runLoop_memSize_returns (s : State) : ∃ t, runLoop Config.memSize s = some t ∧ t.activity = .stopped := by
  obtain ⟨t, ht⟩ := runLoop_returns (Nat.le_add_left 0x10000 s.pc.toNat)
  exact ⟨t, ht, runLoop_some_stopped ht⟩

theorem hostLoad_stopped {s : State} (hstop : s.activity = .stopped) (data : List Byte) (origin : Word) :
    (hostLoad data origin s).activity = .stopped := by
  rw [hostLoad]
  split
  · rfl
  · exact hstop

theorem hostWriteWord_stopped {s : State} (hstop : s.activity = .stopped) (a v : Word) :
    (hostWriteWord a v s).activity = .stopped := by
  rw [hostWriteWord]
  split
  · rfl
  · exact hstop

/-- At rest every host call returns, at rest again: a run by its step bound, every other call at once. -/
theorem hostCall_returns_stopped {s : State} (hstop : s.activity = .stopped) (c : HostCall) :
    ∃ t, hostCall c s = some t ∧ t.activity = .stopped := by
  rw [hostCall, if_pos hstop]
  cases c with
  | writeWord a v => exact ⟨_, rfl, hostWriteWord_stopped hstop a v⟩
  | load data origin => exact ⟨_, rfl, hostLoad_stopped hstop data origin⟩
  | run codeEnd => exact runLoop_memSize_returns (s.startRun codeEnd)
  | loadAndRun code => exact runLoop_memSize_returns (s.startLoadAndRun code)
  | _ => exact ⟨_, rfl, hstop⟩

/-! ### The four ends of a run (rules R64, R72, R74, R75) -/

/-- The state at the end of a run that began at `start`: halted just past a halt byte, at or past the bound, at an
ILLEGAL byte, or at the top of memory. -/
def RunEnd (codeEnd : CodeEnd) (start : Word) (t : State) : Prop :=
  (t.result = .ok .halted ∧ start.toNat < t.pc.toNat ∧ t.mem.readByte (BitVec.ofNat 16 (t.pc.toNat - 1)) = 0x00) ∨
    (t.result = .ok .endOfCode ∧ boundReached codeEnd t.pc = true) ∨
    ∃ e, t.result = .err e ∧ StepFaultOf t e

/-- What a run that began in `s` keeps: memory as it was, `PC` no lower, and the run in progress or at its end. -/
structure RunProgress (codeEnd : CodeEnd) (s u : State) : Prop where
  mem : u.mem = s.mem
  pc : s.pc.toNat ≤ u.pc.toNat
  phase : u.activity = .running codeEnd ∨ u.activity = .stopped ∧ RunEnd codeEnd s.pc u

/-- The bytes of `HALT` in memory begin with 0x00, just below the committed `PC`. -/
theorem readByte_below_committed_halt {u : State} {rest : List Byte}
    (hdec : decode [u.mem.readByte u.pc, u.mem.readByte (BitVec.ofNat 16 (u.pc.toNat + 1))] = .ok (.halt, rest))
    (hfits : u.pc.toNat + Instr.halt.length ≤ 0xFFFF) :
    u.mem.readByte (BitVec.ofNat 16 ((committed .halt u).pc.toNat - 1)) = 0x00 := by
  have hpc : (committed .halt u).pc.toNat - 1 = u.pc.toNat := by
    rw [committed_pc_toNat hfits]
    rfl
  rw [hpc, BitVec.ofNat_toNat, BitVec.setWidth_eq]
  exact (List.cons.inj (decode_ok hdec)).1

theorem RunProgress.step_next {codeEnd : CodeEnd} {s u v : State} (h : RunProgress codeEnd s u)
    (hstep : step u = .next v) : RunProgress codeEnd s v := by
  refine ⟨(step_next_mem hstep).trans h.mem, h.pc.trans (step_next_pc_le hstep), ?_⟩
  rcases h.phase with hrun | ⟨hstop, hend⟩
  · rcases step_next_of_running hrun hstep with ⟨hb, rfl⟩ | ⟨i, rest, hdec, hfits, rfl⟩
    · exact .inr ⟨rfl, .inr (.inl ⟨rfl, hb⟩)⟩
    by_cases hi : i = .halt
    · subst hi
      have hlt : s.pc.toNat < (committed .halt u).pc.toNat := by
        rw [committed_pc_toNat hfits]
        exact Nat.lt_succ_of_le h.pc
      exact .inr ⟨rfl, .inl ⟨rfl, hlt, readByte_below_committed_halt hdec hfits⟩⟩
    · rw [committed_activity, if_neg hi]
      exact .inl hrun
  · rw [step_stopped hstop] at hstep
    cases hstep
    exact .inr ⟨hstop, hend⟩

theorem RunProgress.step_fault {codeEnd : CodeEnd} {s u : State} {e : Fault} (h : RunProgress codeEnd s u)
    (hstep : step u = .fault e) : RunProgress codeEnd s (u.endCall (.err e)) :=
  ⟨h.mem, h.pc, .inr ⟨rfl, .inr (.inr ⟨e, rfl, (stepFaultOf_of_step hstep : StepFaultOf u e)⟩)⟩⟩

theorem runLoop_runProgress {codeEnd : CodeEnd} {k : Nat} {s t : State} (hrun : s.activity = .running codeEnd)
    (h : runLoop k s = some t) : RunProgress codeEnd s t :=
  runLoop_keeps RunProgress.step_next RunProgress.step_fault ⟨rfl, Nat.le_refl _, .inl hrun⟩ h

theorem boundReached_eq_true_iff {codeEnd : CodeEnd} {pc : Word} :
    boundReached codeEnd pc = true ↔ ∃ e, codeEnd = some e ∧ e.val ≤ pc.toNat := by
  cases codeEnd with
  | none => simp
  | some e => simp [boundReached_some]

/-! ### Bytes below `PC` (rule R65)

A state that differs in memory alone is the same state with another memory. -/

/-- Two memories read alike from an address on. -/
def SameBytesFrom (lo : Nat) (m m' : Memory) : Prop :=
  ∀ addr : Word, lo ≤ addr.toNat → m'.readByte addr = m.readByte addr

/-- An operand is read at its position or after it: `read_word` is refused where the next address would wrap. -/
theorem operandBytes_of_sameBytesFrom {m m' : Memory} {p : Word} (h : SameBytesFrom p.toNat m m')
    (mode : Option AddrMode) : operandBytes m' mode p = operandBytes m mode p := by
  have hp := h p (Nat.le_refl _)
  match mode with
  | none => rfl
  | some .immediate => simp only [operandBytes, resolve, hp]
  | some .absolute =>
    by_cases htop : p = 0xFFFF
    · simp only [operandBytes, resolve, htop, Memory.readWord_top]
    · have hsucc := h (p + 1) (Memory.succ_toNat htop ▸ Nat.le_succ _)
      simp only [operandBytes, resolve, Memory.readWord_ok _ htop, hp, hsucc]

theorem fetch_setMem {s : State} {m : Memory} (h : SameBytesFrom s.pc.toNat s.mem m) :
    fetch (s.setMem m) = fetch s := by
  have hop := h s.pc (Nat.le_refl _)
  rcases Nat.lt_or_ge 0xFFFF (s.pc.toNat + 1) with hover | hle
  · simp only [fetch, State.setMem_pc, advance_error hover]
  · have hnext : SameBytesFrom (BitVec.ofNat 16 (s.pc.toNat + 1)).toNat s.mem m := by
      rw [advanced_toNat hle]
      exact fun addr haddr => h addr (Nat.le_of_succ_le haddr)
    simp only [fetch, State.setMem_pc, State.setMem_mem, advance_ok hle, hop, decodeWithOperand,
      operandBytes_of_sameBytesFrom hnext]

theorem committed_setMem (i : Instr) (s : State) (m : Memory) :
    committed i (s.setMem m) = (committed i s).setMem m := by
  cases i <;> rfl

/-- A step raises the same error, or has the same effect, over any memory that reads alike from `PC` on. -/
theorem step_setMem {s : State} {m : Memory} (h : SameBytesFrom s.pc.toNat s.mem m) :
    (∃ e, step s = .fault e ∧ step (s.setMem m) = .fault e) ∨
      ∃ u, step s = .next u ∧ step (s.setMem m) = .next (u.setMem m) := by
  cases hact : s.activity with
  | stopped => exact .inr ⟨s, step_stopped hact, step_stopped hact⟩
  | running codeEnd =>
    cases hb : boundReached codeEnd s.pc with
    | true => exact .inr ⟨_, step_bound hact hb, step_bound hact hb⟩
    | false =>
      have hstep := step_running hact hb
      have hstep' := step_running (s := s.setMem m) hact hb
      rw [fetch_setMem h] at hstep'
      cases hf : fetch s with rw [hf] at hstep hstep'
      | error e => exact .inl ⟨e, hstep, hstep'⟩
      | ok i =>
        rcases exec_alike (s := s) (s' := s.setMem m) rfl i with ⟨e, he, he'⟩ | ⟨hn, hn'⟩
        · exact .inl ⟨e, hstep.trans he, hstep'.trans he'⟩
        · rw [committed_setMem] at hn'
          exact .inr ⟨_, hstep.trans hn, hstep'.trans hn'⟩

/-- A run over another memory that reads alike from `PC` on ends alike: no step moves `PC` down or stores a byte. -/
theorem runLoop_setMem {k : Nat} {s t : State} {m : Memory} (h : SameBytesFrom s.pc.toNat s.mem m)
    (hrun : runLoop k s = some t) : runLoop k (s.setMem m) = some (t.setMem m) := by
  revert h
  refine runLoop_induction
    (motive := fun k s t => SameBytesFrom s.pc.toNat s.mem m → runLoop k (s.setMem m) = some (t.setMem m))
    ?rest ?next ?fault hrun
  case rest => exact fun k s hrest _ => runLoop_stopped (s := s.setMem m) hrest k
  case next =>
    intro k s u t hact hstep ih h
    rcases step_setMem h with ⟨e, hs, -⟩ | ⟨v, hs, hs'⟩ <;> rw [hstep] at hs <;> cases hs
    have hu : SameBytesFrom u.pc.toNat u.mem m := by
      rw [step_next_mem hstep]
      exact fun addr haddr => h addr ((step_next_pc_le hstep).trans haddr)
    rw [runLoop_of_step_next (s := s.setMem m) hact hs', ih hu]
  case fault =>
    intro k s e hstep h
    rcases step_setMem h with ⟨e', hs, hs'⟩ | ⟨v, hs, -⟩ <;> rw [hstep] at hs <;> cases hs
    exact runLoop_of_step_fault hs' k

/-! ### Instructions in memory (rules R69 to R72, R92) -/

theorem bytesAt_append_right {m : Memory} {a : Nat} {xs ys : List Byte} (h : BytesAt m a (xs ++ ys)) :
    BytesAt m (a + xs.length) ys := by
  intro k hk
  have hbyte := h (xs.length + k) (by rw [List.length_append]; omega)
  rw [List.getElem_append_right (Nat.le_add_right _ _), ← Nat.add_assoc] at hbyte
  simpa only [Nat.add_sub_cancel_left] using hbyte

theorem bytesAt_append_left {m : Memory} {a : Nat} {xs ys : List Byte} (h : BytesAt m a (xs ++ ys)) :
    BytesAt m a xs := by
  intro k hk
  have hbyte := h k (by rw [List.length_append]; omega)
  rwa [List.getElem_append_left hk] at hbyte

/-- An encoded instruction at an address is what the two bytes there decode to, whatever the second of them is where the
instruction is one byte long. -/
theorem decode_of_bytesAt {m : Memory} {a : Word} {i : Instr} (h : BytesAt m a.toNat (encode i)) :
    ∃ rest, decode [m.readByte a, m.readByte (BitVec.ofNat 16 (a.toNat + 1))] = .ok (i, rest) := by
  cases i with
  | lda imm =>
    obtain ⟨hop, himm⟩ := bytesAt_pair h
    exact ⟨[], by rw [hop, himm]; rfl⟩
  | halt | tax | inx =>
    exact ⟨[m.readByte (BitVec.ofNat 16 (a.toNat + 1))], by rw [bytesAt_head h]; rfl⟩

/-- In a run without a bound, an encoded instruction at `PC` commits wherever it fits. -/
theorem step_of_bytesAt {s : State} {i : Instr} (hrun : s.activity = .running none)
    (hbytes : BytesAt s.mem s.pc.toNat (encode i)) (hfits : s.pc.toNat + i.length ≤ 0xFFFF) :
    step s = .next (committed i s) := by
  obtain ⟨_, hdec⟩ := decode_of_bytesAt hbytes
  exact (step_of_decode hrun rfl hdec).1 hfits

theorem aluInc_eq_add_one (v : Byte) : aluInc v = v + 1 := by
  refine BitVec.eq_of_toNat_eq ?_
  rw [aluInc_toNat, BitVec.toNat_add]
  rfl

/-- The registers `(A, X, P)` of a state. -/
def State.registers (s : State) : Byte × Byte × Byte := (s.a, s.x, s.p)

theorem committed_registers (i : Instr) (s : State) : (committed i s).registers = evalInstr i s.registers := by
  cases i with
  | inx => simp only [State.registers, evalInstr, committed_inx_a, committed_inx_x, committed_inx_p, aluInc_eq_add_one]
  | halt | lda imm | tax => rfl

/-- Encoded instructions without `HALT` at `PC`, and a halt byte after them, run one step each and halt, with the
registers of their evaluation. -/
theorem runLoop_encodeProgram {is : List Instr} {s : State} (hrun : s.activity = .running none)
    (hhalt : Instr.halt ∉ is) (hbytes : BytesAt s.mem s.pc.toNat (encodeProgram is ++ encode .halt))
    (hfits : s.pc.toNat + ((encodeProgram is).length + 1) ≤ 0xFFFF) :
    ∃ t, runLoop (is.length + 1) s = some t ∧ t.result = .ok .halted ∧
      t.registers = evalInstrs is s.registers ∧ t.pc.toNat = s.pc.toNat + ((encodeProgram is).length + 1) ∧
      t.mem = s.mem := by
  have hact : s.activity ≠ .stopped := by rw [hrun]; nofun
  induction is generalizing s with
  | nil =>
    have hstep := step_of_bytesAt (i := .halt) hrun hbytes hfits
    refine ⟨committed .halt s, ?_, rfl, rfl, committed_pc_toNat hfits, rfl⟩
    rw [runLoop_of_step_next hact hstep]
    exact runLoop_stopped rfl _
  | cons i is ih =>
    obtain ⟨hi, his⟩ := not_or.1 (mt List.mem_cons.2 hhalt)
    rw [encodeProgram, List.length_append, encode_length] at hfits
    rw [encodeProgram, List.append_assoc] at hbytes
    have hone : s.pc.toNat + i.length ≤ 0xFFFF := by omega
    have hpc := committed_pc_toNat hone
    have hrun' : (committed i s).activity = .running none := by
      rw [committed_activity, if_neg (Ne.symm hi), hrun]
    have hbytes' : BytesAt (committed i s).mem (committed i s).pc.toNat (encodeProgram is ++ encode .halt) := by
      rw [committed_mem, hpc, ← encode_length]
      exact bytesAt_append_right hbytes
    obtain ⟨t, ht, hresult, hregs, hend, hmem⟩ := ih hrun' his hbytes' (by omega) (by rw [hrun']; nofun)
    refine ⟨t, ?run, hresult, ?regs, ?pc, hmem.trans (committed_mem i s)⟩
    case run =>
      rw [List.length_cons, runLoop_of_step_next hact (step_of_bytesAt hrun (bytesAt_append_left hbytes) hone), ht]
    case regs => rw [hregs, committed_registers, evalInstrs]
    case pc =>
      rw [hend, hpc, encodeProgram, List.length_append, encode_length]
      omega

/-! ### The statements -/

/-- Settles O46: the loop takes the same steps with more fuel, by induction over the run. -/
theorem moreFuelGivesTheSameEnd : Obligations.MoreFuelGivesTheSameEnd :=
  fun _ j _ _ h => runLoop_add h j

/-- Settles O45: `PC` rises in every step that does not end the run and stays below 0x10000, by induction over the
fuel. -/
theorem everyRunEndsWithinTheStepBound : Obligations.EveryRunEndsWithinTheStepBound := by
  refine ⟨fun s => ?_, fun s codeEnd => runLoop_memSize_returns (s.startRun codeEnd),
    fun s code => runLoop_memSize_returns (s.startLoadAndRun code)⟩
  obtain ⟨t, ht⟩ := runLoop_returns (k := 0x10000 - s.pc.toNat) (s := s) (by omega)
  exact ⟨t, ht, runLoop_some_stopped ht⟩

/-- Settles O47: every step keeps the run's progress, and a run that has returned is no longer in progress. -/
theorem runsEndInOneOfFourWays : Obligations.RunsEndInOneOfFourWays := by
  intro k s t codeEnd hrun h
  have hstop := runLoop_some_stopped h
  obtain ⟨hmem, hpc, hphase⟩ := runLoop_runProgress hrun h
  refine ⟨hstop, hmem, hpc, ?_⟩
  rcases hphase with hrun' | ⟨-, hend⟩
  · rw [hstop] at hrun'
    cases hrun'
  rw [← hmem]
  rcases hend with hhalted | ⟨hbound, hb⟩ | ⟨e, herr, ⟨rfl, htop⟩ | ⟨rfl, hill⟩⟩
  · exact .inl hhalted
  · exact .inr (.inl ⟨hbound, boundReached_eq_true_iff.1 hb⟩)
  · exact .inr (.inr (.inr ⟨herr, htop⟩))
  · exact .inr (.inr (.inl ⟨herr, hill⟩))

/-- Settles O52: a host call begins with the check that no run is in progress, and from rest each call of the session
returns at rest. -/
theorem hostActsOnlyBetweenRuns : Obligations.HostActsOnlyBetweenRuns := by
  refine ⟨fun c s codeEnd hrun => ?during, fun calls s hstop => ?between⟩
  case during => exact if_neg (by rw [hrun]; nofun)
  case between =>
    induction calls generalizing s with
    | nil => exact ⟨s, rfl, hstop⟩
    | cons c calls ih =>
      obtain ⟨u, hu, hustop⟩ := hostCall_returns_stopped hstop c
      rw [hostSession, hu]
      exact ih u hustop

/-- Settles O53: the second state is the first with another memory, and so are the ends of their runs. -/
theorem bytesBelowTheCounterNeverMatter : Obligations.BytesBelowTheCounterNeverMatter := by
  intro k s s' t ha hx hp hpc hresult hactivity hbytes hrun
  have hs' : s' = s.setMem s'.mem := by
    cases s
    cases s'
    cases ha; cases hx; cases hp; cases hpc; cases hresult; cases hactivity
    rfl
  rw [hs']
  exact ⟨_, runLoop_setMem hbytes hrun, rfl⟩

/-- Settles O54: the load places the code at the origin, the run from there takes one step for each instruction, and the
call's fuel is more than it needs. -/
theorem loadedInstructionsRunAsWritten : Obligations.LoadedInstructionsRunAsWritten := by
  intro is s hm hhalt hlen
  have hle : (encodeProgram is ++ [0x00]).length ≤ 32768 := by
    rw [List.length_append, List.length_singleton]
    omega
  have hbytes : BytesAt (s.mem.writeBytes 0x8000 (encodeProgram is ++ [0x00])) 0x8000 (encodeProgram is ++ [0x00]) :=
    Memory.bytesAt_writeBytes hm (Nat.add_le_add_left hle 0x8000)
  have hstart := startLoadAndRun_accepted s hle
  obtain ⟨t, ht, hresult, hregs, hpc, hmem⟩ := runLoop_encodeProgram (is := is)
    (s := s.startLoadAndRun (encodeProgram is ++ [0x00])) (by rw [hstart]; rfl) hhalt (by rw [hstart]; exact hbytes)
    (by rw [hstart]; exact Nat.add_le_add_left hlen 0x8000)
  have hfuel : is.length + 1 ≤ Config.memSize := by
    have hcount := length_le_encodeProgram_length is
    rw [Config.memSize]
    omega
  rw [hstart] at hregs hpc hmem
  refine ⟨t, ?run, hresult, runLoop_some_stopped ht, hregs, hpc, ?code⟩
  case run =>
    rw [loadAndRun, ← Nat.add_sub_cancel' hfuel]
    exact runLoop_add ht _
  case code => rw [hmem]; exact hbytes

/-- Settles O51: the zero fill at address 0 is a halt byte. -/
theorem runFromResetHaltsAtOne : Obligations.RunFromResetHaltsAtOne := by
  have hhalt : step (State.reset.startRun none) = .next (committed .halt (State.reset.startRun none)) := rfl
  rw [Obligations.RunFromResetHaltsAtOne, hostRun, Config.memSize, runLoop_of_step_next (by decide) hhalt]
  exact runLoop_stopped rfl _

/-- Settles O55: the code is read off the error's constructor alone. -/
theorem errorCodesFollowTheTaxonomy : Obligations.ErrorCodesFollowTheTaxonomy :=
  ⟨fun _ => rfl, fun _ => rfl, fun _ _ => rfl, fun _ => rfl⟩

end Sys2Proof.Machine

/-! PROOFS. Program text (30_encoding.md section 6): the pieces of a printed program, each read back as its instruction,
and the statement about them. -/

namespace Sys2Proof.Machine

/-! ### The printed hexadecimal digits -/

theorem hexDigit_mem {n : Nat} (h : n < 16) : hexDigits.getD n '0' ∈ hexDigits := by
  have hlen : n < hexDigits.length := h
  rw [List.getD_eq_getElem _ _ hlen]
  exact List.getElem_mem hlen

theorem digitValue_hexDigit {n : Nat} (h : n < 16) : digitValue (hexDigits.getD n '0') = some n := by
  have hall : ∀ k < 16, digitValue (hexDigits.getD k '0') = some k := by decide
  exact hall n h

theorem hexDigit_not_blank {c : Char} (h : c ∈ hexDigits) : isBlank c = false := by
  have hall : ∀ d ∈ hexDigits, isBlank d = false := by simp [hexDigits, isBlank]
  exact hall c h

theorem hexDigit_not_separator {c : Char} (h : c ∈ hexDigits) : isSeparator c = false := by
  have hall : ∀ d ∈ hexDigits, isSeparator d = false := by simp [hexDigits, isSeparator]
  exact hall c h

/-- Both digits of a byte are among the sixteen. -/
theorem byte_digits_lt (v : Byte) : v.toNat / 16 < 16 ∧ v.toNat % 16 < 16 := by
  have := v.isLt
  omega

/-! ### One printed statement is read back -/

theorem readNumber_printByte (v : Byte) : readNumber (printByte v) = some v.toNat := by
  obtain ⟨hhigh, hlow⟩ := byte_digits_lt v
  have hsum : v.toNat / 16 * 16 + v.toNat % 16 = v.toNat := Nat.div_add_mod' v.toNat 16
  simp only [printByte, readNumber, readDigits, digitValue_hexDigit hhigh, digitValue_hexDigit hlow, hhigh, hlow,
    if_true, Nat.zero_mul, Nat.zero_add, hsum]

theorem readImmediate_printByte (v : Byte) : readImmediate ('#' :: printByte v) = some v := by
  have hlt : v.toNat < 256 := v.isLt
  simp only [readImmediate, readNumber_printByte, hlt, if_true, BitVec.ofNat_toNat, BitVec.setWidth_eq]

theorem readStatement_printInstr (i : Instr) : readStatement (printInstr i) = some i := by
  cases i with
  | lda imm =>
    have hread : readStatement (printInstr (.lda imm)) = (readImmediate ('#' :: printByte imm)).map .lda := by
      simp [readStatement, printInstr, mnemonicChars, isBlank]
    rw [hread, readImmediate_printByte]
    rfl
  | halt | tax | inx => rfl

theorem readStatements_map_printInstr (is : List Instr) : readStatements (is.map printInstr) = some is := by
  induction is with
  | nil => rfl
  | cons i is ih => rw [List.map_cons, readStatements, readStatement_printInstr, ih]

/-! ### Blanks around a printed statement -/

/-- A text that begins and ends with no blank has none to lose. -/
theorem trimBlanks_of_ends {c d : Char} (mid : List Char) (hc : isBlank c = false) (hd : isBlank d = false) :
    trimBlanks (c :: (mid ++ [d])) = c :: (mid ++ [d]) := by
  have hlast : (c :: (mid ++ [d])).reverse = d :: (c :: mid).reverse := by
    rw [← List.cons_append, List.reverse_append]
    rfl
  rw [trimBlanks, List.dropWhile_cons_of_neg (by simp [hc]), hlast, List.dropWhile_cons_of_neg (by simp [hd]),
    ← hlast, List.reverse_reverse]

theorem trimBlanks_printInstr (i : Instr) : trimBlanks (printInstr i) = printInstr i := by
  cases i with
  | lda imm =>
    exact trimBlanks_of_ends ['D', 'A', ' ', '#', '0', 'x', hexDigits.getD (imm.toNat / 16) '0'] (by decide)
      (hexDigit_not_blank (hexDigit_mem (byte_digits_lt imm).2))
  | halt | tax | inx => rfl

theorem trimBlanks_space (cs : List Char) : trimBlanks (' ' :: cs) = trimBlanks cs := rfl

theorem printInstr_ne_nil (i : Instr) : printInstr i ≠ [] := by
  cases i <;> nofun

/-! ### The pieces of a printed program -/

theorem printInstr_no_separator (i : Instr) : ∀ c ∈ printInstr i, isSeparator c = false := by
  cases i with
  | lda imm =>
    obtain ⟨hhigh, hlow⟩ := byte_digits_lt imm
    have hdigits := And.intro (hexDigit_not_separator (hexDigit_mem hhigh)) (hexDigit_not_separator (hexDigit_mem hlow))
    simpa [printInstr, printByte, mnemonicChars, isSeparator] using hdigits
  | halt | tax | inx => simp [printInstr, mnemonicChars, isSeparator]

/-- Characters that end no statement go in front of the first piece. -/
theorem splitStatements_append {pre cs piece : List Char} {pieces : List (List Char)}
    (hpre : ∀ c ∈ pre, isSeparator c = false) (h : splitStatements cs = piece :: pieces) :
    splitStatements (pre ++ cs) = (pre ++ piece) :: pieces := by
  induction pre with
  | nil => exact h
  | cons c pre ih =>
    obtain ⟨hc, hpre⟩ := List.forall_mem_cons.1 hpre
    simp only [List.cons_append, splitStatements, ih hpre, hc, Bool.false_eq_true, if_false]

/-- A `;` ends an empty piece. -/
theorem splitStatements_semicolon {cs piece : List Char} {pieces : List (List Char)}
    (h : splitStatements cs = piece :: pieces) : splitStatements (';' :: cs) = [] :: piece :: pieces := by
  rw [splitStatements, h]
  rfl

/-- A printed program's pieces are its statements, each after the first behind the space that follows a `;`. -/
theorem splitStatements_printProgram (i : Instr) (is : List Instr) :
    splitStatements (printProgram (i :: is)) = printInstr i :: is.map fun j => ' ' :: printInstr j := by
  induction is generalizing i with
  | nil =>
    have hsplit := splitStatements_append (printInstr_no_separator i) (rfl : splitStatements [] = [[]])
    rwa [List.append_nil] at hsplit
  | cons j js ih =>
    have hspace := splitStatements_append (pre := [' ']) (by simp [isSeparator]) (ih j)
    have hsplit := splitStatements_append (printInstr_no_separator i) (splitStatements_semicolon hspace)
    rw [List.append_nil] at hsplit
    rw [printProgram, List.append_assoc]
    exact hsplit

theorem map_trimBlanks_splitStatements_printProgram (i : Instr) (is : List Instr) :
    (splitStatements (printProgram (i :: is))).map trimBlanks = (i :: is).map printInstr := by
  have hpiece : ∀ j, trimBlanks (' ' :: printInstr j) = printInstr j := fun j =>
    (trimBlanks_space _).trans (trimBlanks_printInstr j)
  simp only [splitStatements_printProgram, List.map_cons, List.map_map, Function.comp_def, trimBlanks_printInstr,
    hpiece]

/-! ### The statement -/

/-- Settles O16: the separators cut a printed program into its statements, whose blanks the reader passes over, and each
statement is read back as its instruction. -/
theorem printedProgramsAreReadBack : Obligations.PrintedProgramsAreReadBack := by
  intro is
  cases is with
  | nil => rfl
  | cons i is =>
    have hkept : ((i :: is).map printInstr).filter (· ≠ []) = (i :: is).map printInstr := by
      refine List.filter_eq_self.2 (List.forall_mem_map.2 fun j _ => ?_)
      exact decide_eq_true (printInstr_ne_nil j)
    rw [readProgram, map_trimBlanks_splitStatements_printProgram, hkept, readStatements_map_printInstr]

end Sys2Proof.Machine
